-- ==== Sys2Proof/Config.lean ====
section
/-! DEFINITION. The sizes the spec fixes (00_scope.md R7, R8). Nothing is left to an implementation: the spec has
no parameter open and no free value, so this file holds no opaque constant. -/

namespace Sys2Proof.Config

/-- R7 WORD: width of every data word in bits. -/
abbrev wordBits : Nat := 64
/-- R7 NSTATE: number of state words. -/
abbrev nState : Nat := 8
/-- R7 BLOCK_BYTES: bytes per block. -/
abbrev blockBytes : Nat := 128
/-- R7 BLOCK_WORDS: words per block. -/
abbrev blockWords : Nat := 16
/-- R7 NROUNDS: rounds per block. -/
abbrev nRounds : Nat := 80
/-- R7 NSCHED: message schedule words per block. -/
abbrev nSched : Nat := 80
/-- R7 NK: round constants. -/
abbrev nK : Nat := 80
/-- R7 DIGEST_BYTES. -/
abbrev digestBytes : Nat := 64
/-- R7 LEN_FIELD_BYTES: length field at the end of the padding. -/
abbrev lenFieldBytes : Nat := 16
/-- R7 MAX_MSG_BITS: largest accepted message length in bits (also R191, 90_conflicts.md C2). -/
abbrev maxMsgBits : Nat := 2 ^ 64 - 1
/-- R8 CMD_BITS: width of a command word. -/
abbrev cmdBits : Nat := 8
/-- R8 DATA_BITS: width of the write-data and read-data operands. -/
abbrev dataBits : Nat := 64
/-- R8 CAUSE_BITS: width of the error cause field. -/
abbrev causeBits : Nat := 2
/-- R8: number of commands. -/
abbrev nCommands : Nat := 4

end Sys2Proof.Config
end

