-- ==== Sys2Proof/Word.lean ====
section
/-! DEFINITION. The word types of 00_scope.md R9: bytes, 64-bit words, and the fixed-length arrays of words the
engine holds. Every quantity is unsigned (R125). -/

namespace Sys2Proof

/-- A byte: 8 bits (R9). -/
abbrev Byte := BitVec 8

/-- A word: an unsigned integer of 64 bits, bit 0 least significant (R9). -/
abbrev Word := BitVec 64

/-- The eight words of a digest state (R21). -/
abbrev HWords := Vector Word 8

/-- The sixteen words of one 128-byte block (R7, R23). -/
abbrev Block := Vector Word 16

/-- The eighty words of a message schedule (R140). -/
abbrev Schedule := Vector Word 80

end Sys2Proof
end

