-- ==== Sys2Proof/Syntax.lean ====
section
/-! DEFINITION. What the host can present to the engine (30_encoding.md R80 to R82) and the instruction set:
one constructor per row of spec/opcode_table.json. -/

namespace Sys2Proof

/-- One request of the transaction interface: an 8-bit command word and a 64-bit write-data operand (R80). -/
structure Request where
  cmd : BitVec 8
  wdata : Word
  deriving DecidableEq, Repr

/-- The four commands (R1, R83). `idx` is the 4-bit field `cmd[3:0]`; `wdata` is an operand of WRW alone (R82). -/
inductive Instr where
  /-- INIT, format Z (R161). -/
  | init
  /-- WRW idx, format WI (R141): `idx` selects `W[idx]`, `wdata` is the word written. -/
  | wrw (idx : BitVec 4) (wdata : Word)
  /-- COMPRESS, format Z (R167). -/
  | compress
  /-- RDH idx, format RI (R168): `idx` selects `H[idx]`; bit 3 of `idx` must be 0 (R82), see `WellFormed`. -/
  | rdh (idx : BitVec 4)
  deriving DecidableEq, Repr

end Sys2Proof
end

