-- ==== Sys2Proof/WellFormed.lean ====
section
/-! DEFINITION. Which instructions have an encoding: the operand constraints of the format table 30_encoding.md R82. -/

namespace Sys2Proof

/-- The operand check of each format as a Bool (R82): WRW takes all sixteen indices, RDH takes 0..7. -/
def wellFormed : Instr → Bool
  | .init => true
  | .wrw _ _ => true
  | .compress => true
  | .rdh idx => decide (idx.toNat < 8)

/-- An instruction some command word encodes. -/
abbrev WellFormed (i : Instr) : Prop := wellFormed i = true

end Sys2Proof
end

