-- ==== Sys2Proof/Decode.lean ====
section
/-! DEFINITION. The decoder of 30_encoding.md R88, total on all 256 command words, and after it the encoder, written
from the same operation map R83. Decoding depends on the command word alone, never on the engine's state (R81). -/

namespace Sys2Proof

/-- Why a command word is illegal (R87). The engine treats both alike: ILLEGAL_CMD (R222, U12). -/
inductive DecodeError where
  /-- `op` is 0 or 5..15: no command has this operation code. -/
  | unusedOpcode (op : BitVec 4)
  /-- `op` names INIT, COMPRESS or RDH and a reserved bit of `idx` is not 0. -/
  | reservedIndex (op idx : BitVec 4)
  deriving DecidableEq, Repr

/-- The field `op = cmd[7:4]` (R81). -/
def opField (cmd : BitVec 8) : BitVec 4 := cmd.extractLsb' 4 4

/-- The field `idx = cmd[3:0]` (R81). -/
def idxField (cmd : BitVec 8) : BitVec 4 := cmd.extractLsb' 0 4

/-- R88, line by line; the data operand reaches WRW unchanged (R84). -/
def decode (r : Request) : Except DecodeError Instr :=
  let op := opField r.cmd
  let idx := idxField r.cmd
  if op = 1#4 ∧ idx = 0#4 then .ok .init
  else if op = 2#4 then .ok (.wrw idx r.wdata)
  else if op = 3#4 ∧ idx = 0#4 then .ok .compress
  else if op = 4#4 ∧ idx.toNat < 8 then .ok (.rdh idx)
  else if op = 1#4 ∨ op = 3#4 ∨ op = 4#4 then .error (.reservedIndex op idx)
  else .error (.unusedOpcode op)

/-- The command word of an instruction (R83): the operation code above the index. -/
def encodeCmd : Instr → BitVec 8
  | .init => 0x1#4 ++ 0x0#4
  | .wrw idx _ => 0x2#4 ++ idx
  | .compress => 0x3#4 ++ 0x0#4
  | .rdh idx => 0x4#4 ++ idx

/-- The request that presents an instruction. Only WRW uses `wdata` (R82); the others carry 0, which the engine
ignores (R82, U5). -/
def encode (i : Instr) : Request :=
  match i with
  | .init => ⟨encodeCmd i, 0⟩
  | .wrw _ wdata => ⟨encodeCmd i, wdata⟩
  | .compress => ⟨encodeCmd i, 0⟩
  | .rdh _ => ⟨encodeCmd i, 0⟩

/-- One row of the match and mask form of R83: a word `c` selects the row when `c and mask = pattern`. -/
structure OpcodeRow where
  mnemonic : String
  pattern : BitVec 8
  mask : BitVec 8
  deriving DecidableEq, Repr

/-- The four rows of R83 (and of spec/opcode_table.json). -/
def opcodeRows : List OpcodeRow :=
  [⟨"INIT", 0x10, 0xff⟩, ⟨"WRW", 0x20, 0xf0⟩, ⟨"COMPRESS", 0x30, 0xff⟩, ⟨"RDH", 0x40, 0xf8⟩]

/-- `c and mask = match` (R83). -/
def OpcodeRow.selects (row : OpcodeRow) (cmd : BitVec 8) : Bool := cmd &&& row.mask == row.pattern

/-- The mnemonic of an instruction (R93). -/
def mnemonic : Instr → String
  | .init => "INIT"
  | .wrw _ _ => "WRW"
  | .compress => "COMPRESS"
  | .rdh _ => "RDH"

/-- A legal command word: one that decodes to a command (R88). -/
def isLegal (cmd : BitVec 8) : Bool :=
  match decode ⟨cmd, 0⟩ with
  | .ok _ => true
  | .error _ => false

/-- The request whose bits are `w`, numbered from the command word up: bits 7..0 are `cmd`, bits 71..8 are `wdata`
(DESIGN CHOICE, log entry 9). Bits at or above `nbits` are 0. -/
def requestOfTableWord (nbits w : Nat) : Request :=
  let v := w % 2 ^ nbits
  ⟨BitVec.ofNat 8 v, BitVec.ofNat 64 (v / 256)⟩

/-- What the decoder reads from the instruction whose bits are `w` (log entry 9). -/
def decodeTableWord (nbits w : Nat) : Option Instr :=
  match decode (requestOfTableWord nbits w) with
  | .ok i => some i
  | .error _ => none

end Sys2Proof
end

