-- ==== Sys2Proof/Machine/Alu.lean ====
section
/-! DEFINITION. The 64-bit word ALU (40_alu.md): eight primitive operations and six composite functions, all pure,
none of them a command and none setting a flag (R110). Shift and rotation amounts are constants, restricted to 1..63
by a proof argument, since the spec gives other amounts no meaning (R111, U3). -/

namespace Sys2Proof.Machine

/-- SHR, logical shift right (R112). -/
def shr (x : Word) (n : Nat) (_h : 0 < n ∧ n < 64 := by decide) : Word := x >>> n

/-- SHL, shift left, used only inside ROTR (R113). -/
def shl (x : Word) (m : Nat) (_h : 0 < m ∧ m < 64 := by decide) : Word := x <<< m

/-- AND (R114). -/
def and64 (x y : Word) : Word := x &&& y

/-- OR, used only inside ROTR (R115). -/
def or64 (x y : Word) : Word := x ||| y

/-- XOR (R116). -/
def xor64 (x y : Word) : Word := x ^^^ y

/-- NOT: `x xor 0xffffffffffffffff` (R117). -/
def not64 (x : Word) : Word := xor64 x 0xffffffffffffffff

/-- ADD64: addition modulo 2^64, the carry out of bit 63 dropped (R118). -/
def add64 (x y : Word) : Word := BitVec.ofNat 64 ((x.toNat + y.toNat) % 2 ^ 64)

/-- ROTR, rotate right by n with 0 < n < 64 (R111). -/
def rotr (x : Word) (n : Nat) (h : 0 < n ∧ n < 64 := by decide) : Word :=
  and64 (or64 (shr x n h) (shl x (64 - n) (by omega))) 0xffffffffffffffff

/-- BSIG0, the document's S0 (R119). -/
def bsig0 (a : Word) : Word := xor64 (xor64 (rotr a 28) (rotr a 34)) (rotr a 39)

/-- BSIG1, the document's S1 (R120). -/
def bsig1 (e : Word) : Word := xor64 (xor64 (rotr e 14) (rotr e 18)) (rotr e 41)

/-- SSIG0, the document's s0 (R121); the third term is a shift, not a rotation. -/
def ssig0 (x : Word) : Word := xor64 (xor64 (rotr x 1) (rotr x 8)) (shr x 7)

/-- SSIG1, the document's s1 (R122). -/
def ssig1 (x : Word) : Word := xor64 (xor64 (rotr x 19) (rotr x 61)) (shr x 6)

/-- CH, choose (R123). -/
def ch (e f g : Word) : Word := xor64 (and64 e f) (and64 (not64 e) g)

/-- MAJ, majority (R124). -/
def maj (a b c : Word) : Word := xor64 (xor64 (and64 a b) (and64 a c)) (and64 b c)

end Sys2Proof.Machine
end

