-- ==== Sys2Proof/Machine/Schedule.lean ====
section
/-! DEFINITION. The message schedule generator (41_schedule.md): the extension rule R142, the function Sched of R143,
and the 16-word window an implementation may keep instead (R145). -/

namespace Sys2Proof.Machine

/-- One extension step from the four words at distances 16, 15, 7 and 2 behind (R142):
`(W[i-16] + s0 + W[i-7] + s1) mod 2^64`. -/
def extendWord (w16 w15 w7 w2 : Word) : Word :=
  add64 (add64 (add64 w16 (ssig0 w15)) w7) (ssig1 w2)

/-- The first `16 + n` schedule words of a block: the block, then n extension steps in ascending order (R142).
Word number `i = 16 + n` reads the words `i - 16 = n`, `i - 15`, `i - 7` and `i - 2`, all of them already there. -/
def schedTo (b : Block) : (n : Nat) → Vector Word (16 + n)
  | 0 => b
  | n + 1 =>
    let v := schedTo b n
    v.push (extendWord v[n] v[n + 1] v[n + 9] v[n + 14])

/-- `Sched(B)`, the eighty schedule words of a block (R143). -/
def sched (b : Block) : Schedule := schedTo b 64

/-- The latest sixteen schedule words, `W[t] .. W[t+15]`, after one more extension step: the oldest leaves, the new
one enters (R145). -/
def slideWindow (v : Block) : Block :=
  Vector.ofFn fun i : Fin 16 =>
    if hi : i.val < 15 then v[i.val + 1] else extendWord v[0] v[1] v[9] v[14]

end Sys2Proof.Machine
end

