-- ==== Sys2Proof/Machine/Tables.lean ====
section
/-! DEFINITION. The engine's two read-only tables (10_state.md R40): no command writes them, reset does not touch them
(R29, R45). They are the tables of R41 and R42 row by row, each literal beside the prime it belongs to, as R43 asks; the
spec marks the values as general knowledge (93_implementation_defined.md G1, G2; log entry 10). -/

namespace Sys2Proof.Machine

/-- One row of a table of R41 or R42, its number being its place: the prime, and the word printed beside it. -/
structure TableRow where
  prime : Nat
  word : Word
  deriving DecidableEq, Repr

/-- The rows of R41. -/
def ivRows : List TableRow :=
  [⟨2, 0x6a09e667f3bcc908⟩, ⟨3, 0xbb67ae8584caa73b⟩, ⟨5, 0x3c6ef372fe94f82b⟩, ⟨7, 0xa54ff53a5f1d36f1⟩,
   ⟨11, 0x510e527fade682d1⟩, ⟨13, 0x9b05688c2b3e6c1f⟩, ⟨17, 0x1f83d9abfb41bd6b⟩, ⟨19, 0x5be0cd19137e2179⟩]

/-- The initial state table `IV[0..7]`, the last column of R41. -/
def iv : HWords := ⟨⟨ivRows.map (·.word)⟩, rfl⟩

/-- Rows 0 to 19 of R42. -/
def kRows0 : List TableRow :=
  [⟨2, 0x428a2f98d728ae22⟩, ⟨3, 0x7137449123ef65cd⟩, ⟨5, 0xb5c0fbcfec4d3b2f⟩, ⟨7, 0xe9b5dba58189dbbc⟩,
   ⟨11, 0x3956c25bf348b538⟩, ⟨13, 0x59f111f1b605d019⟩, ⟨17, 0x923f82a4af194f9b⟩, ⟨19, 0xab1c5ed5da6d8118⟩,
   ⟨23, 0xd807aa98a3030242⟩, ⟨29, 0x12835b0145706fbe⟩, ⟨31, 0x243185be4ee4b28c⟩, ⟨37, 0x550c7dc3d5ffb4e2⟩,
   ⟨41, 0x72be5d74f27b896f⟩, ⟨43, 0x80deb1fe3b1696b1⟩, ⟨47, 0x9bdc06a725c71235⟩, ⟨53, 0xc19bf174cf692694⟩,
   ⟨59, 0xe49b69c19ef14ad2⟩, ⟨61, 0xefbe4786384f25e3⟩, ⟨67, 0x0fc19dc68b8cd5b5⟩, ⟨71, 0x240ca1cc77ac9c65⟩]

/-- Rows 20 to 39 of R42. -/
def kRows1 : List TableRow :=
  [⟨73, 0x2de92c6f592b0275⟩, ⟨79, 0x4a7484aa6ea6e483⟩, ⟨83, 0x5cb0a9dcbd41fbd4⟩, ⟨89, 0x76f988da831153b5⟩,
   ⟨97, 0x983e5152ee66dfab⟩, ⟨101, 0xa831c66d2db43210⟩, ⟨103, 0xb00327c898fb213f⟩, ⟨107, 0xbf597fc7beef0ee4⟩,
   ⟨109, 0xc6e00bf33da88fc2⟩, ⟨113, 0xd5a79147930aa725⟩, ⟨127, 0x06ca6351e003826f⟩, ⟨131, 0x142929670a0e6e70⟩,
   ⟨137, 0x27b70a8546d22ffc⟩, ⟨139, 0x2e1b21385c26c926⟩, ⟨149, 0x4d2c6dfc5ac42aed⟩, ⟨151, 0x53380d139d95b3df⟩,
   ⟨157, 0x650a73548baf63de⟩, ⟨163, 0x766a0abb3c77b2a8⟩, ⟨167, 0x81c2c92e47edaee6⟩, ⟨173, 0x92722c851482353b⟩]

/-- Rows 40 to 59 of R42. -/
def kRows2 : List TableRow :=
  [⟨179, 0xa2bfe8a14cf10364⟩, ⟨181, 0xa81a664bbc423001⟩, ⟨191, 0xc24b8b70d0f89791⟩, ⟨193, 0xc76c51a30654be30⟩,
   ⟨197, 0xd192e819d6ef5218⟩, ⟨199, 0xd69906245565a910⟩, ⟨211, 0xf40e35855771202a⟩, ⟨223, 0x106aa07032bbd1b8⟩,
   ⟨227, 0x19a4c116b8d2d0c8⟩, ⟨229, 0x1e376c085141ab53⟩, ⟨233, 0x2748774cdf8eeb99⟩, ⟨239, 0x34b0bcb5e19b48a8⟩,
   ⟨241, 0x391c0cb3c5c95a63⟩, ⟨251, 0x4ed8aa4ae3418acb⟩, ⟨257, 0x5b9cca4f7763e373⟩, ⟨263, 0x682e6ff3d6b2b8a3⟩,
   ⟨269, 0x748f82ee5defb2fc⟩, ⟨271, 0x78a5636f43172f60⟩, ⟨277, 0x84c87814a1f0ab72⟩, ⟨281, 0x8cc702081a6439ec⟩]

/-- Rows 60 to 79 of R42. -/
def kRows3 : List TableRow :=
  [⟨283, 0x90befffa23631e28⟩, ⟨293, 0xa4506cebde82bde9⟩, ⟨307, 0xbef9a3f7b2c67915⟩, ⟨311, 0xc67178f2e372532b⟩,
   ⟨313, 0xca273eceea26619c⟩, ⟨317, 0xd186b8c721c0c207⟩, ⟨331, 0xeada7dd6cde0eb1e⟩, ⟨337, 0xf57d4f7fee6ed178⟩,
   ⟨347, 0x06f067aa72176fba⟩, ⟨349, 0x0a637dc5a2c898a6⟩, ⟨353, 0x113f9804bef90dae⟩, ⟨359, 0x1b710b35131c471b⟩,
   ⟨367, 0x28db77f523047d84⟩, ⟨373, 0x32caab7b40c72493⟩, ⟨379, 0x3c9ebe0a15c9bebc⟩, ⟨383, 0x431d67c49c100d4c⟩,
   ⟨389, 0x4cc5d4becb3e42b6⟩, ⟨397, 0x597f299cfc657e2a⟩, ⟨401, 0x5fcb6fab3ad6faec⟩, ⟨409, 0x6c44198c4a475817⟩]

/-- The rows of R42. -/
def kRows : List TableRow := kRows0 ++ kRows1 ++ kRows2 ++ kRows3

/-- The round constant table `K[0..79]`, the last column of R42. -/
def kTable : Vector Word 80 := ⟨⟨kRows.map (·.word)⟩, rfl⟩

/-- The prime column of R42, the first eighty primes. -/
def tablePrimes : Vector Nat 80 := ⟨⟨kRows.map (·.prime)⟩, rfl⟩

end Sys2Proof.Machine
end

