-- ==== Sys2Proof/Machine/Compress.lean ====
section
/-! DEFINITION. The compression function (42_compress.md R162 to R166): working-variable load, eighty rounds,
feed-forward. A pure function of the eight state words, the sixteen block words and the table K. -/

namespace Sys2Proof.Machine

/-- The eight working variables (R20, R28); they exist only inside one COMPRESS. -/
structure Working where
  a : Word
  b : Word
  c : Word
  d : Word
  e : Word
  f : Word
  g : Word
  h : Word
  deriving DecidableEq, Repr

/-- Working-variable load: a..h are copies of H[0]..H[7] (R162). -/
def loadWorking (s : HWords) : Working :=
  ⟨s[0], s[1], s[2], s[3], s[4], s[5], s[6], s[7]⟩

/-- One round with round constant `k` and schedule word `w` (R163); all eight assignments use the old values. -/
def roundStep (k w : Word) (v : Working) : Working :=
  let temp1 := add64 (add64 (add64 (add64 v.h (bsig1 v.e)) (ch v.e v.f v.g)) k) w
  let temp2 := add64 (bsig0 v.a) (maj v.a v.b v.c)
  { h := v.g, g := v.f, f := v.e, e := add64 v.d temp1, d := v.c, c := v.b, b := v.a, a := add64 temp1 temp2 }

/-- The working variables after rounds 0 .. n - 1, each run exactly once in ascending order; round t uses `K[t]` and
`W[t]` (R164). -/
def workingAfter (sch : Schedule) (v : Working) : (n : Nat) → n ≤ 80 → Working
  | 0, _ => v
  | n + 1, hn => roundStep kTable[n] sch[n] (workingAfter sch v n (Nat.le_of_succ_le hn))

/-- Feed-forward: the working variables are added into the state words from before round 0 (R165). -/
def feedForward (s : HWords) (v : Working) : HWords :=
  #v[add64 s[0] v.a, add64 s[1] v.b, add64 s[2] v.c, add64 s[3] v.d,
     add64 s[4] v.e, add64 s[5] v.f, add64 s[6] v.g, add64 s[7] v.h]

/-- `Compress(S, B)` (R166). -/
def compress (s : HWords) (b : Block) : HWords :=
  feedForward s (workingAfter (sched b) (loadWorking s) 80 (Nat.le_refl 80))

/-- The rounds with a window of sixteen schedule words in place of the whole schedule (R145): round t reads the
window's oldest word, then the window slides. -/
def windowAfter (b : Block) (v : Working) : (n : Nat) → n ≤ 80 → Block × Working
  | 0, _ => (b, v)
  | n + 1, hn =>
    let p := windowAfter b v n (Nat.le_of_succ_le hn)
    (slideWindow p.1, roundStep kTable[n] p.1[0] p.2)

/-- The compression function of an implementation that stores sixteen schedule words (R145, D17). -/
def compressWindowed (s : HWords) (b : Block) : HWords :=
  feedForward s (windowAfter b (loadWorking s) 80 (Nat.le_refl 80)).2

/-- A message of several blocks folded in order: the state of one block is the input of the next (R169, R62). -/
def compressAll (s : HWords) (bs : List Block) : HWords := bs.foldl compress s

end Sys2Proof.Machine
end

