-- ==== Sys2Proof/Machine/State.lean ====
section
/-! DEFINITION. The engine's state (10_state.md R20, in the representation of R33), the interface events and
responses (30_encoding.md R80, R86), and the state after reset (R45). Plain data throughout. -/

namespace Sys2Proof.Machine

/-- The non-zero cause codes of 60_exceptions.md R221. -/
inductive ErrorCause where
  /-- 1: the word decodes to ILLEGAL (R222). -/
  | illegalCmd
  /-- 2: COMPRESS or RDH with `HV` = 0 (R223). -/
  | hUninit
  /-- 3: COMPRESS with `HV` = 1 and some block word empty (R223). -/
  | blockIncomplete
  deriving DecidableEq, Repr

/-- What the engine returns for one command (R86): `rdata` exists in `okData` alone (U4). -/
inductive Response where
  /-- Executed, no data. -/
  | ok
  /-- Executed, with the 64-bit word read. -/
  | okData (v : Word)
  /-- Not executed; `c` is the latched cause. -/
  | err (c : BitVec 2)
  deriving DecidableEq, Repr

/-- What the host can do to the engine, between two transactions or as one (R80): present a request, or apply the
reset event (R260). There is nothing else. -/
inductive HostEvent where
  | request (r : Request)
  | reset
  deriving DecidableEq, Repr

/-- The architectural state (R20) and the model's two interface fields.

`h` and `w` hold the registers with their flags in the form R33 names: `none` is the spec's content `empty` (R11),
`HV` = 1 exactly when `h` is some tuple, `WV[i]` = 1 exactly when `w[i]` is some word (`State.hv`, `State.wv`).
The constant tables are not state (R29); the registers internal to one COMPRESS are not represented between commands
(R28, U6, log entry 6). -/
structure State where
  /-- `CAUSE[1:0]` (R25): 0 for none, else the code of the first error since reset. -/
  cause : BitVec 2
  /-- `H[0..7]` and `HV` (R21, R22). -/
  h : Option HWords
  /-- `W[0..15]` and `WV[15:0]` (R23, R24). -/
  w : Vector (Option Word) 16
  /-- The response of the last transaction, if there has been one since reset (R80, R86; the model's own field, log entry 2). -/
  response : Option Response
  /-- The host's command stream, oldest first (R29 (c); the model's own field, log entry 1). -/
  pending : List HostEvent
  deriving DecidableEq, Repr

/-- Why a step could stop the machine. The spec has no such reason: every error is a response (R220, R224) and every
command responds (R267), so there is no constructor and no step faults (log entry 12). -/
inductive Fault where
  deriving DecidableEq, Repr

/-- Why an instruction could be given no meaning. -/
inductive Refusal where
  /-- Raised only by an arm of `exec` for an instruction without a meaning; no arm raises it, since all four commands
  are modelled. Safe: it would only stop the model. -/
  | notModelled (mnemonic : String)
  deriving DecidableEq, Repr

/-- The state right after reset (R45): no error latched, H and all of W `empty`; no response given and nothing
pending (log entries 1 and 2). -/
def State.reset : State where
  cause := 0#2
  h := none
  w := Vector.replicate 16 none
  response := none
  pending := []

end Sys2Proof.Machine
end

