-- ==== Sys2Proof/Machine/Flags.lean ====
section
/-! DEFINITION. Status: the flags HV and WV as views of the registers they guard (10_state.md R22, R24, R33), the cause
codes (60_exceptions.md R221) and the status of a response (30_encoding.md R86). There are no condition codes (R27). -/

namespace Sys2Proof.Machine

/-- `HV`: H holds values (R22, R33). -/
def State.hv (s : State) : Bool := s.h.isSome

/-- The number whose bit i says whether entry i is present. -/
def presentBits : List (Option Word) → Nat
  | [] => 0
  | o :: os => (if o.isSome then 1 else 0) + 2 * presentBits os

/-- `WV[15:0]`: `WV[i]` = 1 exactly when `W[i]` is present (R24, R33). -/
def State.wv (s : State) : BitVec 16 := BitVec.ofNat 16 (presentBits s.w.toList)

/-- The code recorded in `CAUSE` and returned in `status` (R221). -/
def ErrorCause.code : ErrorCause → BitVec 2
  | .illegalCmd => 1#2
  | .hUninit => 2#2
  | .blockIncomplete => 3#2

/-- `status[1:0]` of a response (R86). -/
def Response.status : Response → BitVec 2
  | .ok => 0#2
  | .okData _ => 0#2
  | .err c => c

/-- `rdata[63:0]`, where the response carries one (R86, U4). -/
def Response.rdata : Response → Option Word
  | .ok => none
  | .okData v => some v
  | .err _ => none

end Sys2Proof.Machine
end

