-- ==== Sys2Proof/Machine/Operands.lean ====
section
/-! DEFINITION. Operand forms: the index field (30_encoding.md R84), the two index spaces the host reaches
(20_memory.md R50, R51), and the whole block as COMPRESS reads it (41_schedule.md R140). -/

namespace Sys2Proof.Machine

/-- `zext_7(cmd[3:0])`, an unsigned index with no scaling (R84). -/
def indexOf (idx : BitVec 4) : Nat := (idx.setWidth 7).toNat

theorem indexOf_eq (idx : BitVec 4) : indexOf idx = idx.toNat := by
  simp only [indexOf, BitVec.toNat_setWidth]
  exact Nat.mod_eq_of_lt (by have := idx.isLt; omega)

theorem indexOf_lt (idx : BitVec 4) : indexOf idx < 16 := by
  rw [indexOf_eq]; exact idx.isLt

/-- Write of one buffer word: `W[idx] <- v`, `WV[idx] <- 1` (R141). -/
def writeW (w : Vector (Option Word) 16) (idx : BitVec 4) (v : Word) : Vector (Option Word) 16 :=
  w.set (indexOf idx) (some v) (indexOf_lt idx)

/-- Read of one state word (R168); the indices 8..15 select nothing, so the read takes the range check (R51). -/
def readH (h : HWords) (idx : BitVec 4) (hi : indexOf idx < 8) : Word := h[indexOf idx]

/-- The block buffer with all sixteen words `empty` (R11, R161, R167). -/
def emptyW : Vector (Option Word) 16 := Vector.replicate 16 none

/-- The block, when all sixteen words are present, that is when `WV` = 0xffff (R24, R167). -/
def presentBlock (w : Vector (Option Word) 16) : Option Block :=
  if hp : ∀ i : Fin 16, w[i].isSome = true then some (Vector.ofFn fun i => w[i].get (hp i)) else none

end Sys2Proof.Machine
end

