-- ==== Sys2Proof/Machine/Ops.lean ====
section
/-! DEFINITION. The operations every command shares: responding (30_encoding.md R80), refusing while an error is latched
(60_exceptions.md R225), error entry (R224), and the reset event (70_reset_and_hazards.md R260), which is the only way
back from an error (R227). -/

namespace Sys2Proof.Machine

/-- Return the response of the transaction (R80). -/
def State.respond (s : State) (r : Response) : State := { s with response := some r }

/-- Refusal while an error is latched: respond `ERR(CAUSE)` and change nothing else (R225). -/
def State.refuse (s : State) : State := s.respond (.err s.cause)

/-- `raise Error(c)`, error entry (R224): set CAUSE to c when it is 0, respond `ERR(CAUSE)`, write nothing else. -/
def State.raise (s : State) (c : ErrorCause) : State :=
  let s' := if s.cause = 0#2 then { s with cause := c.code } else s
  s'.respond (.err s'.cause)

/-- The first check of every command (R225, R226): refuse with an error latched, else go on. -/
def State.unlessLatched (s : State) (body : State → State) : State :=
  if s.cause = 0#2 then body s else s.refuse

/-- The reset event (R260): every field of R20 to its value of R45. No response is owed (R261), and the rest of the
host's command stream stays the host's (log entry 4). -/
def State.applyReset (s : State) : State := { State.reset with pending := s.pending }

end Sys2Proof.Machine
end

