-- ==== Sys2Proof/Machine/Commands.lean ====
section
/-! DEFINITION. The meanings of the four commands, one definition each, in the order of spec/opcode_table.json. Every
meaning is total: an error of the spec is a response and a latched cause (60_exceptions.md R220, R224), hence a next
state, and every check is made before anything is written. -/

namespace Sys2Proof.Machine

/-- INIT (42_compress.md R161): H takes the table IV, HV is set, the buffer is emptied, respond OK. -/
def execInit (s : State) : Host.Outcome State Fault Refusal :=
  .next <| s.unlessLatched fun s =>
    { s with h := some iv, w := emptyW }.respond .ok

/-- WRW (41_schedule.md R141): `W[idx] <- wdata`, `WV[idx] <- 1`, respond OK. It does not look at HV. -/
def execWrw (idx : BitVec 4) (wdata : Word) (s : State) : Host.Outcome State Fault Refusal :=
  .next <| s.unlessLatched fun s =>
    { s with w := writeW s.w idx wdata }.respond .ok

/-- COMPRESS (42_compress.md R167): with HV = 0 raise H_UNINIT, else with a block word missing raise
BLOCK_INCOMPLETE (R226), else fold the block into H, empty the buffer, respond OK. -/
def execCompress (s : State) : Host.Outcome State Fault Refusal :=
  .next <| s.unlessLatched fun s =>
    match s.h, presentBlock s.w with
    | none, _ => s.raise .hUninit
    | some _, none => s.raise .blockIncomplete
    | some h, some b => { s with h := some (compress h b), w := emptyW }.respond .ok

/-- RDH (42_compress.md R168): an index of 8..15 is the decoder's ILLEGAL_CMD (20_memory.md R51, R87; log entry 8);
then with HV = 0 raise H_UNINIT; else respond `OK_DATA(H[idx])` and write nothing. -/
def execRdh (idx : BitVec 4) (s : State) : Host.Outcome State Fault Refusal :=
  .next <| s.unlessLatched fun s =>
    if hi : indexOf idx < 8 then
      match s.h with
      | none => s.raise .hUninit
      | some h => s.respond (.okData (readH h idx hi))
    else s.raise .illegalCmd

end Sys2Proof.Machine
end

