-- ==== Sys2Proof/Machine/Dispatch.lean ====
section
/-! DEFINITION. The dispatch from instructions to their meanings: one arm per constructor of Instr. -/

namespace Sys2Proof.Machine

def exec (i : Instr) (s : State) : Host.Outcome State Fault Refusal :=
  match i with
  | .init => Sys2Proof.Machine.execInit s
  | .wrw idx wdata => Sys2Proof.Machine.execWrw idx wdata s
  | .compress => Sys2Proof.Machine.execCompress s
  | .rdh idx => Sys2Proof.Machine.execRdh idx s

end Sys2Proof.Machine
end

