-- ==== Sys2Proof/Machine/Transact.lean ====
section
/-! DEFINITION. What one event of the host does to the engine: a transaction (30_encoding.md R80) or the reset event
(70_reset_and_hazards.md R260). -/

namespace Sys2Proof.Machine

/-- One transaction (R80): an illegal word raises ILLEGAL_CMD (R87, R222), a legal one is executed. With an error
latched either way answers `ERR(CAUSE)` and changes nothing (R225): every meaning checks that first, and so does
error entry. -/
def transact (r : Request) (s : State) : Host.Outcome State Fault Refusal :=
  match decode r with
  | .ok i => exec i s
  | .error _ => .next (s.raise .illegalCmd)

/-- One event of the host, carried out as one indivisible transition (R57). -/
def runEvent (ev : HostEvent) (s : State) : Host.Outcome State Fault Refusal :=
  match ev with
  | .request r => transact r s
  | .reset => .next s.applyReset

end Sys2Proof.Machine
end

