-- ==== Sys2Proof/Machine/Step.lean ====
section
/-! DEFINITION. One step of the machine: the oldest event of the host's command stream is taken and carried out
(20_memory.md R57, R59: one indivisible transition at a time, in issue order). -/

namespace Sys2Proof.Machine

/-- With nothing pending the engine waits (R262, log entry 3); else the oldest event leaves the stream and is run. -/
def step (s : State) : Host.Outcome State Fault Refusal :=
  match s.pending with
  | [] => .next s
  | ev :: rest => runEvent ev { s with pending := rest }

/-- `s` with the request whose bits are `w` as the next event of the command stream, before whatever is pending
(log entry 9). -/
def State.withFetchWord (s : State) (nbits w : Nat) : State :=
  { s with pending := .request (requestOfTableWord nbits w) :: s.pending }

end Sys2Proof.Machine
end

