-- ==== Sys2Proof/Machine/Cluster.lean ====
section
/-! DEFINITION. Several engines side by side (20_memory.md R65, 60_exceptions.md R233): each has its own state, nothing
mutable is shared, and no ordering relates commands to different engines. -/

namespace Sys2Proof.Machine

/-- Several independent engines. -/
abbrev Cluster := List State

/-- One engine of the cluster takes a step; the others have no part in it (R65). -/
def clusterStep (c : Cluster) (k : Fin c.length) : Host.Outcome Cluster Fault Refusal :=
  match step (c.get k) with
  | .next s => .next (c.set k.val s)
  | .fault f => .fault f
  | .refused r => .refused r

end Sys2Proof.Machine
end

