-- ==== Sys2Proof/Machine/HostDigest.lean ====
section
/-! DEFINITION. What the host must do (43_host_digest.md): padding, partition into blocks, the command sequence of one
message, serialisation and rendering of the digest, and the host's own errors; with the byte order of 20_memory.md
R52, R53 and the data encodings of 30_encoding.md R90, R91. The engine knows none of it (R29, R92). -/

namespace Sys2Proof.Machine

/-- The bytes as one big-endian number: the first byte is the most significant (R52). -/
def beNat (bytes : List Byte) : Nat := bytes.foldl (fun acc b => acc * 256 + b.toNat) 0

/-- `n` bytes of a number, most significant first (R52). -/
def beBytes : Nat → Nat → List Byte
  | 0, _ => []
  | n + 1, v => BitVec.ofNat 8 (v / 256 ^ n) :: beBytes n v

/-- `MemRead(addr, n)`: the n bytes at addr .. addr+n-1 of the host's buffer as one big-endian integer of 8n bits
(R11, R90). The range is a proof argument: a read outside the buffer is not in the spec. -/
def memRead (buf : List Byte) (addr n : Nat) (_h : addr + n ≤ buf.length) : BitVec (8 * n) :=
  BitVec.ofNat (8 * n) (beNat ((buf.drop addr).take n))

/-- The eight bytes of a word, most significant first (R53, R91): byte k is bits 63 - 8k down to 56 - 8k. -/
def wordBytes (v : Word) : List Byte :=
  [v.extractLsb' 56 8, v.extractLsb' 48 8, v.extractLsb' 40 8, v.extractLsb' 32 8,
   v.extractLsb' 24 8, v.extractLsb' 16 8, v.extractLsb' 8 8, v.extractLsb' 0 8]

/-- The number z of zero bytes in the padding of a message of L bytes (R193). -/
def zeroCount (len : Nat) : Nat :=
  if len % 128 < 112 then 111 - len % 128 else 239 - len % 128

/-- The length field: 8*L as a 128-bit big-endian unsigned integer (R194). -/
def lengthField (len : Nat) : List Byte := beBytes Config.lenFieldBytes (8 * len)

/-- `Pad(message)` (R192): the message, one byte 0x80, z zero bytes, the length field. -/
def pad (message : List Byte) : List Byte :=
  message ++ 0x80 :: (List.replicate (zeroCount message.length) 0 ++ lengthField message.length)

/-- Block j of a padded buffer: word i is `MemRead(128*j + 8*i, 8)` (R196). -/
def blockAt (buf : List Byte) (j : Nat) (h : 128 * j + 128 ≤ buf.length) : Block :=
  Vector.ofFn fun i : Fin 16 => memRead buf (128 * j + 8 * i.val) 8 (by omega)

/-- The consecutive 128-byte blocks of a buffer, in order (R196). -/
def blocks (buf : List Byte) : List Block :=
  (List.finRange (buf.length / Config.blockBytes)).map fun j =>
    blockAt buf j.val (by have := j.isLt; simp only [Config.blockBytes] at this; omega)

/-- The 64 bytes of a digest: the state words big-endian, concatenated in state order (R91, R198). -/
def serialise (h : HWords) : List Byte := h.toList.flatMap wordBytes

/-- The digest as the document's algorithm computes it from the bytes alone: `Compress` folded over the blocks of the
padded message from IV (R169, R190, R198). -/
def sha512 (message : List Byte) : List Byte := serialise (compressAll iv (blocks (pad message)))

/-- The commands of LDBLK: sixteen WRW in ascending index order (R94). -/
def loadBlock (b : Block) : List Instr :=
  (List.finRange 16).map fun i => .wrw (BitVec.ofNat 4 i.val) b[i]

/-- The commands of HASHBLK: LDBLK, then COMPRESS (R94). -/
def hashBlock (b : Block) : List Instr := loadBlock b ++ [.compress]

/-- The commands of RDDIG: RDH 0 to RDH 7 (R94). -/
def readDigest : List Instr := (List.range 8).map fun i => .rdh (BitVec.ofNat 4 i)

/-- The command sequence for one message (R197): INIT, HASHBLK for each block, RDDIG. -/
def digestCommands (message : List Byte) : List Instr :=
  .init :: ((blocks (pad message)).flatMap hashBlock ++ readDigest)

/-- Why the host returns no digest. The spec names one kind of error, `invalid-input-type` (R210); the other reasons,
each a value of its own, are the model's (log entries 14, 19 and 20). -/
inductive HostError where
  /-- `invalid-input-type`: neither a byte sequence nor UTF-8-encodable text (R210). -/
  | invalidInputType
  /-- The message has 2^61 bytes or more. R215 says that the host refuses it and not how the caller sees that. DESIGN
  CHOICE, log entry 19. -/
  | messageTooLong
  /-- A response was `ERR(c)`. R212 says that the host returns nothing, and speaks of the designated error without
  naming one for this case. DESIGN CHOICE, log entry 20: the caller gets the cause. -/
  | engineError (c : BitVec 2)
  /-- The engine gave no response; no rule lets this happen (R267), and in the model no step does it
  (DESIGN CHOICE, log entry 14). -/
  | noResponse
  deriving DecidableEq, Repr

/-- The host issues one command and takes its response (R80): it presents it alone, since it issues the next only after
the response (R59). -/
def issue (i : Instr) (s : State) : State × Option Response :=
  match step { s with pending := [.request (encode i)] } with
  | .next s' => (s', s'.response)
  | .fault _ => (s, none)
  | .refused _ => (s, none)

/-- The host issues commands in order, collects the data words, and stops at the first response that is not OK (R197,
R212); that the caller then gets the cause of that response is the model's choice (log entry 20). -/
def issueAll : List Instr → State → State × Except HostError (List Word)
  | [], s => (s, .ok [])
  | i :: is, s =>
    match issue i s with
    | (s', some .ok) => issueAll is s'
    | (s', some (.okData v)) =>
      match issueAll is s' with
      | (s'', .ok vs) => (s'', .ok (v :: vs))
      | (s'', .error e) => (s'', .error e)
    | (s', some (.err c)) => (s', .error (.engineError c))
    | (s', none) => (s', .error .noResponse)

/-- `digest(message)` on one engine (R197): refuse an over-long message before any command (R191, R215; the error
value is the model's choice, log entry 19), else issue the sequence and return the bytes of the words read. -/
def digestBytes (message : List Byte) (s : State) : State × Except HostError (List Byte) :=
  if 8 * message.length ≤ Config.maxMsgBits then
    match issueAll (digestCommands message) s with
    | (s', .ok vs) => (s', .ok (vs.flatMap wordBytes))
    | (s', .error e) => (s', .error e)
  else (s, .error .messageTooLong)

/-- What a caller can hand to the host's entry point (R210, R214; 90_conflicts.md C9). -/
inductive HostValue where
  | bytes (message : List Byte)
  /-- Text, as code points; not every list of numbers is encodable. -/
  | text (codePoints : List Nat)
  /-- Anything else. -/
  | other
  deriving DecidableEq, Repr

/-- The UTF-8 bytes of one code point, where it has any. PRESUMED: the spec names the encoding (R214) and not its
bytes (log entry 13). -/
def utf8CodePoint (c : Nat) : Option (List Byte) :=
  let tail (shift : Nat) : Byte := BitVec.ofNat 8 (0x80 + c / 2 ^ shift % 64)
  if c < 0x80 then some [BitVec.ofNat 8 c]
  else if c < 0x800 then some [BitVec.ofNat 8 (0xc0 + c / 2 ^ 6), tail 0]
  else if 0xd800 ≤ c ∧ c < 0xe000 then none
  else if c < 0x10000 then some [BitVec.ofNat 8 (0xe0 + c / 2 ^ 12), tail 6, tail 0]
  else if c < 0x110000 then some [BitVec.ofNat 8 (0xf0 + c / 2 ^ 18), tail 12, tail 6, tail 0]
  else none

/-- Text as bytes (R214), where it is UTF-8-encodable. -/
def utf8 : List Nat → Option (List Byte)
  | [] => some []
  | c :: cs =>
    match utf8CodePoint c, utf8 cs with
    | some bs, some rest => some (bs ++ rest)
    | _, _ => none

/-- The host's entry point: the type check comes before anything else, so a rejected call leaves the engine as it was
(R197, R210, R211). -/
def digest (v : HostValue) (s : State) : State × Except HostError (List Byte) :=
  match v with
  | .bytes message => digestBytes message s
  | .text codePoints =>
    match utf8 codePoints with
    | some message => digestBytes message s
    | none => (s, .error .invalidInputType)
  | .other => (s, .error .invalidInputType)

/-- One lowercase hexadecimal digit (R199). -/
def hexDigit (n : BitVec 4) : Char :=
  if n.toNat < 10 then Char.ofNat (48 + n.toNat) else Char.ofNat (87 + n.toNat)

/-- The digest as lowercase hexadecimal, two digits a byte, high nibble first (R199). -/
def hexDigits (bytes : List Byte) : List Char :=
  bytes.flatMap fun b => [hexDigit (b.extractLsb' 4 4), hexDigit (b.extractLsb' 0 4)]

end Sys2Proof.Machine
end

