-- ==== Sys2Proof/Safety.lean ====
section
/-! DEFINITION. What counts as a safe state of the engine, in the terms the claims use: the relations between the
fields of the state that the spec's prose promises (10_state.md R21, R25; 60_exceptions.md R223, R225; 42_compress.md
R168), and what two states share when no command can tell them apart. -/

namespace Sys2Proof

open Sys2Proof.Machine

/-- The digest states that exist: IV, or the result of compressions started from IV (R21). -/
inductive Chained : HWords → Prop where
  | ofInit : Chained iv
  | ofCompress (h : HWords) (b : Block) : Chained h → Chained (compress h b)

/-- The state register file holds only values that INIT and COMPRESS put there (R21, R170). -/
def DigestChained (s : State) : Prop := ∀ h, s.h = some h → Chained h

/-- The response's status equals CAUSE as it stands after the command (R86, R225). -/
def StatusAgrees (s : State) : Prop := ∀ r, s.response = some r → r.status = s.cause

/-- A latched H_UNINIT or BLOCK_INCOMPLETE still has its reason in the state, since nothing changes after it
(R221, R223, R224, R225). -/
def CauseExplained (s : State) : Prop :=
  (s.cause = 2#2 → s.hv = false) ∧ (s.cause = 3#2 → s.hv = true ∧ s.wv ≠ 0xffff#16)

/-- Data in a response is one of the state words (R168). -/
def DataGenuine (s : State) : Prop :=
  ∀ v, s.response = some (.okData v) → ∃ h, s.h = some h ∧ v ∈ h

/-- The engine's invariant. -/
structure Inv (s : State) : Prop where
  digestChained : DigestChained s
  statusAgrees : StatusAgrees s
  causeExplained : CauseExplained s
  dataGenuine : DataGenuine s

/-- Two states with the same architectural state (R20): CAUSE, H with HV, W with WV. -/
def SameArch (s t : State) : Prop := s.cause = t.cause ∧ s.h = t.h ∧ s.w = t.w

end Sys2Proof
end

