-- ==== Sys2Proof/Certificates/Slice0/Obligations.lean ====
section
/-! DEFINITION. The statements for the provers, in the order of the spec's files: encodings, the step, the four
commands, errors, reset, whole-machine rules, the ALU, the tables, schedule and compression, the host's side. Requests
stand in the field `pending` and responses in the field `response`, the model's own form of the interface of R80 (log
entries 1 and 2). -/

open Sys2Proof Sys2Proof.Machine

/-! Encodings (30_encoding.md) -/

/-- Words written out from R83, with the operand of R84, and neighbours that are illegal (R87). -/
def Obligations.WordsOfTheOperationMapDecode : Prop :=
  ∀ d : Word,
    decode ⟨0x10, d⟩ = .ok .init ∧
    decode ⟨0x20, d⟩ = .ok (.wrw 0 d) ∧ decode ⟨0x23, d⟩ = .ok (.wrw 3 d) ∧ decode ⟨0x2f, d⟩ = .ok (.wrw 15 d) ∧
    decode ⟨0x30, d⟩ = .ok .compress ∧
    decode ⟨0x40, d⟩ = .ok (.rdh 0) ∧ decode ⟨0x47, d⟩ = .ok (.rdh 7) ∧
    decode ⟨0x00, d⟩ = .error (.unusedOpcode 0) ∧ decode ⟨0xff, d⟩ = .error (.unusedOpcode 15) ∧
    decode ⟨0x11, d⟩ = .error (.reservedIndex 1 1) ∧ decode ⟨0x31, d⟩ = .error (.reservedIndex 3 1) ∧
    decode ⟨0x48, d⟩ = .error (.reservedIndex 4 8)

/-- R88, the decoder as a total function of the two fields of R81, which are here the quotient and remainder by 16. -/
def Obligations.DecoderIsTheTotalFunctionOfTheFields : Prop :=
  ∀ (r : Request) (op idx : Nat), op = r.cmd.toNat / 16 → idx = r.cmd.toNat % 16 →
    (op = 1 ∧ idx = 0 → decode r = .ok .init) ∧
    (op = 2 → decode r = .ok (.wrw (BitVec.ofNat 4 idx) r.wdata)) ∧
    (op = 3 ∧ idx = 0 → decode r = .ok .compress) ∧
    (op = 4 ∧ idx < 8 → decode r = .ok (.rdh (BitVec.ofNat 4 idx))) ∧
    (¬ (op = 1 ∧ idx = 0) ∧ op ≠ 2 ∧ ¬ (op = 3 ∧ idx = 0) ∧ ¬ (op = 4 ∧ idx < 8) → ∃ e, decode r = .error e)

/-- R83 as match and mask: a row selects exactly the words that decode to its command, and no word selects two rows. -/
def Obligations.OpcodeRowsSelectTheirCommands : Prop :=
  (∀ (r : Request) (row : OpcodeRow), row ∈ opcodeRows →
    (row.selects r.cmd = true ↔ ∃ i, decode r = .ok i ∧ mnemonic i = row.mnemonic)) ∧
  (∀ (cmd : BitVec 8) (row row' : OpcodeRow), row ∈ opcodeRows → row' ∈ opcodeRows →
    row.selects cmd = true → row'.selects cmd = true → row = row')

/-- Decode and encode agree on every well-formed instruction, every operand at every value (R83, R84, R88). -/
def Obligations.DecodeOfEncodeIsTheInstruction : Prop :=
  ∀ i : Instr, WellFormed i → decode (encode i) = .ok i

/-- The other direction: a word that decodes is the one encoding of its instruction (R83, D4), the instruction is well
formed, and WRW carries the data operand unchanged (R84). -/
def Obligations.DecodedInstructionHasExactlyItsWord : Prop :=
  ∀ (r : Request) (i : Instr), decode r = .ok i →
    WellFormed i ∧ (encode i).cmd = r.cmd ∧ ∀ idx v, i = .wrw idx v → v = r.wdata

/-! The step (20_memory.md R57, R59; 70_reset_and_hazards.md R262) -/

/-- A step runs the decoded instruction: exec on the state from which the event has been taken. The event queue is the
model's (log entry 1). -/
def Obligations.StepRunsTheDecodedInstruction : Prop :=
  ∀ (s : State) (r : Request) (rest : List HostEvent) (i : Instr),
    s.pending = .request r :: rest → decode r = .ok i → step s = exec i { s with pending := rest }

/-- A word of the opcode table placed for the next step runs as the decoder reads it, and the queue is as before. Where
the word is placed is the model's choice (log entry 9). -/
def Obligations.PlacedTableWordRunsNext : Prop :=
  ∀ (s : State) (nbits w : Nat) (i : Instr),
    decodeTableWord nbits w = some i → step (s.withFetchWord nbits w) = exec i s

/-- With nothing pending the engine waits (R262; the step that changes nothing is the model's choice, log entry 3). -/
def Obligations.StepWithNothingPendingChangesNothing : Prop :=
  ∀ s : State, s.pending = [] → step s = .next s

/-- R222: ILLEGAL_CMD is raised for exactly the 230 listed words, by the command word alone. -/
def Obligations.IllegalWordsRaiseIllegalCmd : Prop :=
  (∀ (s : State) (r : Request) (rest : List HostEvent) (op idx : Nat),
    s.pending = .request r :: rest → s.cause = 0#2 → op = r.cmd.toNat / 16 → idx = r.cmd.toNat % 16 →
    (op = 0 ∨ 5 ≤ op ∨ ((op = 1 ∨ op = 3) ∧ idx ≠ 0) ∨ (op = 4 ∧ 8 ≤ idx) →
      step s = .next { s with pending := rest, cause := 1#2, response := some (.err 1#2) }) ∧
    (¬ (op = 0 ∨ 5 ≤ op ∨ ((op = 1 ∨ op = 3) ∧ idx ≠ 0) ∨ (op = 4 ∧ 8 ≤ idx)) →
      ∃ t, step s = .next t ∧ t.cause ≠ 1#2)) ∧
  ((List.range 256).filter fun c =>
    c / 16 = 0 ∨ 5 ≤ c / 16 ∨ ((c / 16 = 1 ∨ c / 16 = 3) ∧ c % 16 ≠ 0) ∨ (c / 16 = 4 ∧ 8 ≤ c % 16)).length = 230

/-- Every event of the host is answered by one step: the event leaves the queue, a request gets a response whose status
is CAUSE as it stands after, and data comes only in an OK response to RDH (R86, R225, R267). -/
def Obligations.EveryEventIsAnsweredInOneStep : Prop :=
  ∀ (s : State) (ev : HostEvent) (rest : List HostEvent), s.pending = ev :: rest →
    ∃ t, step s = .next t ∧ t.pending = rest ∧
      ∀ r, ev = .request r → ∃ a, t.response = some a ∧ a.status = t.cause ∧
        (a.rdata.isSome = true → a.status = 0#2 ∧ ∃ idx, decode r = .ok (.rdh idx))

/-! The four commands (41_schedule.md R141; 42_compress.md R161, R167, R168) -/

/-- R161: command word 0x10 is INIT, whatever the data operand; INIT loads the table, sets HV, empties the buffer and answers OK in every state without an error latched; with
one latched it is refused; twice is the same as once. -/
def Obligations.InitLoadsTheInitialState : Prop :=
  (∀ d : Word, decode ⟨0x10, d⟩ = .ok .init) ∧
  (∀ s : State, s.cause = 0#2 → ∃ t, exec .init s = .next t ∧
    t.h = some iv ∧ t.hv = true ∧ (∀ i (hi : i < 16), t.w[i] = none) ∧ t.wv = 0#16 ∧
    t.response = some .ok ∧ t.cause = 0#2 ∧ t.pending = s.pending ∧ exec .init t = .next t) ∧
  (∀ s : State, s.cause ≠ 0#2 → exec .init s = .next { s with response := some (.err s.cause) })

/-- R141: command word 0x20 + i is WRW i with the data operand as it is; WRW writes `W[i]` and `WV[i]` and nothing else, whatever HV, WV and the value are; with an error latched it is
refused. -/
def Obligations.WrwWritesOneBufferWord : Prop :=
  (∀ (idx : BitVec 4) (v : Word), decode ⟨0x20 + idx.setWidth 8, v⟩ = .ok (.wrw idx v)) ∧
  (∀ (s : State) (idx : BitVec 4) (v : Word), s.cause = 0#2 → ∃ t, exec (.wrw idx v) s = .next t ∧
    (∀ j (hj : j < 16), t.w[j] = if j = idx.toNat then some v else s.w[j]) ∧
    (∀ j, j < 16 → t.wv.getLsbD j = if j = idx.toNat then true else s.wv.getLsbD j) ∧
    t.h = s.h ∧ t.hv = s.hv ∧ t.cause = 0#2 ∧ t.response = some .ok ∧ t.pending = s.pending) ∧
  (∀ (s : State) (idx : BitVec 4) (v : Word), s.cause ≠ 0#2 →
    exec (.wrw idx v) s = .next { s with response := some (.err s.cause) })

/-- R167: command word 0x30 is COMPRESS; it is refused with an error latched, raises H_UNINIT with HV = 0, else BLOCK_INCOMPLETE with WV not
0xffff, and else folds the sixteen words into H, empties the buffer and answers OK. -/
def Obligations.CompressFoldsTheBufferedBlock : Prop :=
  (∀ d : Word, decode ⟨0x30, d⟩ = .ok .compress) ∧
  (∀ s : State, s.cause ≠ 0#2 → exec .compress s = .next { s with response := some (.err s.cause) }) ∧
  (∀ s : State, s.cause = 0#2 → s.hv = false →
    exec .compress s = .next { s with cause := 2#2, response := some (.err 2#2) }) ∧
  (∀ s : State, s.cause = 0#2 → s.hv = true → s.wv ≠ 0xffff#16 →
    exec .compress s = .next { s with cause := 3#2, response := some (.err 3#2) }) ∧
  (∀ s : State, s.cause = 0#2 → s.hv = true → s.wv = 0xffff#16 →
    ∃ h b, s.h = some h ∧ s.w = b.map some ∧
      exec .compress s =
        .next { s with h := some (compress h b), w := Vector.replicate 16 none, response := some .ok })

/-- R168: command word 0x40 + i, i in 0..7, is RDH i; it is refused with an error latched, raises H_UNINIT with HV = 0, and else answers `OK_DATA(H[i])` and writes
nothing. -/
def Obligations.RdhAnswersTheStateWord : Prop :=
  (∀ (idx : BitVec 4) (d : Word), idx.toNat < 8 → decode ⟨0x40 + idx.setWidth 8, d⟩ = .ok (.rdh idx)) ∧
  (∀ (s : State) (idx : BitVec 4), s.cause ≠ 0#2 →
    exec (.rdh idx) s = .next { s with response := some (.err s.cause) }) ∧
  (∀ (s : State) (idx : BitVec 4), s.cause = 0#2 → idx.toNat < 8 → s.hv = false →
    exec (.rdh idx) s = .next { s with cause := 2#2, response := some (.err 2#2) }) ∧
  (∀ (s : State) (idx : BitVec 4) (h : HWords) (hi : idx.toNat < 8), s.cause = 0#2 → s.h = some h →
    exec (.rdh idx) s = .next { s with response := some (.okData h[idx.toNat]) })

/-- An RDH with index 8..15, which no command word encodes, raises ILLEGAL_CMD as its words do (R51, R87; that the
meaning says so itself is the model's choice, log entry 8). -/
def Obligations.RdhReservedIndexIsIllegal : Prop :=
  ∀ (s : State) (idx : BitVec 4), s.cause = 0#2 → 8 ≤ idx.toNat →
    exec (.rdh idx) s = .next { s with cause := 1#2, response := some (.err 1#2) }

/-- The frame of each command (R31): what stays when exec answers a next state, on every path, success, error or
refusal. -/
def Obligations.CommandsLeaveTheRestUnchanged : Prop :=
  ∀ (i : Instr) (s t : State), exec i s = .next t →
    t.pending = s.pending ∧
    (i = .init → t.cause = s.cause) ∧
    (∀ idx v, i = .wrw idx v → t.cause = s.cause ∧ t.h = s.h ∧
      ∀ j (hj : j < 16), j ≠ idx.toNat → t.w[j] = s.w[j]) ∧
    (i = .compress → (s.cause ≠ 0#2 → t.cause = s.cause) ∧ (t.response = some .ok → t.cause = s.cause) ∧
      (t.response ≠ some .ok → t.h = s.h ∧ t.w = s.w)) ∧
    (∀ idx, i = .rdh idx → (s.cause ≠ 0#2 → t.cause = s.cause) ∧
      (∀ v, t.response = some (.okData v) → t.cause = s.cause) ∧ t.h = s.h ∧ t.w = s.w)

/-- R58: INIT and WRW are idempotent, the last WRW to an index wins, RDH repeated answers the same and changes nothing,
and a COMPRESS after a successful one finds the buffer empty (R167 case (a)). -/
def Obligations.RepeatingACommand : Prop :=
  (∀ s t : State, exec .init s = .next t → exec .init t = .next t) ∧
  (∀ (s t u : State) (idx : BitVec 4) (a b : Word), exec (.wrw idx a) s = .next t → exec (.wrw idx b) t = .next u →
    exec (.wrw idx b) s = .next u) ∧
  (∀ (s t : State) (idx : BitVec 4), exec (.rdh idx) s = .next t → t.response ≠ some (.err t.cause) →
    t.h = s.h ∧ t.w = s.w ∧ t.cause = s.cause ∧ exec (.rdh idx) t = .next t) ∧
  (∀ s t : State, exec .compress s = .next t → t.response = some .ok →
    exec .compress t = .next { t with cause := 3#2, response := some (.err 3#2) })

/-- R141 case (b): writes to two different indices may come in either order. -/
def Obligations.BufferWritesCommute : Prop :=
  ∀ (s t u t' u' : State) (i j : BitVec 4) (a b : Word), i ≠ j →
    exec (.wrw i a) s = .next t → exec (.wrw j b) t = .next u →
    exec (.wrw j b) s = .next t' → exec (.wrw i a) t' = .next u' → u = u'

/-! Errors (60_exceptions.md) -/

/-- R224: error entry sets CAUSE to the code when it is 0 and answers `ERR(CAUSE)`; nothing else is written, so a command
that answers an error has had no effect on H, HV, W and WV. -/
def Obligations.ErrorEntryWritesOnlyCause : Prop :=
  (∀ (s : State) (c : ErrorCause), s.cause = 0#2 →
    s.raise c = { s with cause := c.code, response := some (.err c.code) }) ∧
  (∀ (s : State) (c : ErrorCause), s.cause ≠ 0#2 → s.raise c = { s with response := some (.err s.cause) }) ∧
  (∀ (s t : State) (r : Request) (rest : List HostEvent) (c : BitVec 2), s.pending = .request r :: rest →
    step s = .next t → t.response = some (.err c) →
    t.cause = c ∧ c ≠ 0#2 ∧ t.h = s.h ∧ t.hv = s.hv ∧ t.w = s.w ∧ t.wv = s.wv)

/-- R225: with CAUSE not 0 every request, legal or not, is answered `ERR(CAUSE)` and changes nothing; so the status
always equals CAUSE as it stands after the command. -/
def Obligations.LatchedErrorRefusesEveryRequest : Prop :=
  (∀ (s : State) (r : Request) (rest : List HostEvent), s.pending = .request r :: rest → s.cause ≠ 0#2 →
    step s = .next { s with pending := rest, response := some (.err s.cause) }) ∧
  (∀ (s t : State) (r : Request) (rest : List HostEvent), s.pending = .request r :: rest → step s = .next t →
    ∃ a, t.response = some a ∧ a.status = t.cause)

/-- R226: the checks are made in the order latched error, illegal word, H_UNINIT, BLOCK_INCOMPLETE, and the first that
applies decides. -/
def Obligations.ChecksAreMadeInOrder : Prop :=
  ∀ (s : State) (r : Request) (rest : List HostEvent), s.pending = .request r :: rest →
    ∃ t, step s = .next t ∧
      t.cause =
        if s.cause ≠ 0#2 then s.cause
        else
          match decode r with
          | .error _ => 1#2
          | .ok .compress => if s.hv = false then 2#2 else if s.wv ≠ 0xffff#16 then 3#2 else 0#2
          | .ok (.rdh _) => if s.hv = false then 2#2 else 0#2
          | .ok .init => 0#2
          | .ok (.wrw _ _) => 0#2

/-- R25, R227: a latched cause stays until a reset event; no command clears or replaces it. -/
def Obligations.OnlyResetClearsALatchedCause : Prop :=
  ∀ s t : State, step s = .next t → s.cause ≠ 0#2 → t.cause ≠ s.cause →
    ∃ rest, s.pending = .reset :: rest ∧ t = { State.reset with pending := rest }

/-! Reset (10_state.md R45; 70_reset_and_hazards.md R260) -/

/-- R45: the state right after reset. -/
def Obligations.ResetStateIsEmpty : Prop :=
  State.reset.cause = 0#2 ∧ State.reset.hv = false ∧ State.reset.wv = 0#16 ∧ State.reset.h = none ∧
    ∀ i (hi : i < 16), State.reset.w[i] = none

/-- R260: the reset event puts every piece of R20 to its reset value, from any state. That the rest of the queue stays
and no response is given is the model's choice (log entry 4). -/
def Obligations.ResetEventGivesTheResetState : Prop :=
  ∀ (s : State) (rest : List HostEvent), s.pending = .reset :: rest →
    step s = .next { State.reset with pending := rest }

/-! Whole-machine rules -/

/-- The invariant holds right after reset. -/
def Obligations.InvariantHoldsAtReset : Prop := Inv State.reset

/-- Every step keeps the invariant: H is IV or the result of compressions started from IV (R21), the status of the
response is CAUSE (R225), a latched H_UNINIT or BLOCK_INCOMPLETE still has its reason (R223, R224), and data in a
response is a word of H (R168). -/
def Obligations.StepKeepsTheInvariant : Prop :=
  ∀ s t : State, Inv s → step s = .next t → Inv t

/-- R170: only INIT and COMPRESS change H, and reset empties it. -/
def Obligations.OnlyInitCompressAndResetChangeH : Prop :=
  ∀ s t : State, step s = .next t → t.h ≠ s.h →
    (∃ rest, s.pending = .reset :: rest ∧ t.h = none) ∨
    (∃ r rest, s.pending = .request r :: rest ∧ r.cmd = 0x10#8 ∧ t.h = some iv) ∨
    (∃ r rest h b, s.pending = .request r :: rest ∧ r.cmd = 0x30#8 ∧ s.h = some h ∧ s.w = b.map some ∧
      t.h = some (compress h b))

/-- R171, R20: no state outside R20 has any effect; when an event is pending, states that agree on CAUSE, H, W and the
queue have the same next state. -/
def Obligations.NextStateDependsOnArchitecturalStateAlone : Prop :=
  ∀ s t : State, SameArch s t → s.pending = t.pending → s.pending ≠ [] → step s = step t

/-- R82, U5: the data operand of a request that is not a WRW has no effect. -/
def Obligations.IgnoredDataOperandHasNoEffect : Prop :=
  ∀ (s : State) (cmd : BitVec 8) (d d' : Word) (rest : List HostEvent), cmd.toNat / 16 ≠ 2 →
    step { s with pending := .request ⟨cmd, d⟩ :: rest } = step { s with pending := .request ⟨cmd, d'⟩ :: rest }

/-- R30: nothing of an earlier message can reach a later one; after INIT two ready engines are in the same state. -/
def Obligations.InitForgetsTheEarlierMessage : Prop :=
  ∀ s t : State, s.cause = 0#2 → t.cause = 0#2 → s.pending = t.pending → exec .init s = exec .init t

/-- R65: a step of one engine leaves every other engine as it was (several engines as a list, log entry 17). -/
def Obligations.EnginesAreIndependent : Prop :=
  ∀ (es es' : Cluster) (k : Fin es.length), clusterStep es k = .next es' →
    es'.length = es.length ∧ (∀ j : Nat, j ≠ k.val → es'[j]? = es[j]?) ∧
    ∃ s, step (es.get k) = .next s ∧ es'[k.val]? = some s

/-! The ALU (40_alu.md) -/

/-- R111: bit i of a rotation is bit (i + n) mod 64 of the operand, and rotations compose. -/
def Obligations.RotrMovesEveryBit : Prop :=
  (∀ (x : Word) (n : Nat) (h : 0 < n ∧ n < 64) (i : Nat), i < 64 →
    (rotr x n h).getLsbD i = x.getLsbD ((i + n) % 64)) ∧
  (∀ (x : Word) (m n : Nat) (hm : 0 < m ∧ m < 64) (hn : 0 < n ∧ n < 64) (h : 0 < (m + n) % 64 ∧ (m + n) % 64 < 64),
    rotr (rotr x m hm) n hn = rotr x ((m + n) % 64) h)

/-- R112, R113: shifts are division by, and multiplication with, a power of two. -/
def Obligations.ShiftsAreByPowersOfTwo : Prop :=
  (∀ (x : Word) (n : Nat) (h : 0 < n ∧ n < 64), (shr x n h).toNat = x.toNat / 2 ^ n) ∧
  (∀ (x : Word) (m : Nat) (h : 0 < m ∧ m < 64), (shl x m h).toNat = x.toNat * 2 ^ m % 2 ^ 64)

/-- R114 to R117: the bitwise operations, bit by bit, and NOT as a number. -/
def Obligations.BitwiseOperationsActOnEachBit : Prop :=
  ∀ (x y : Word) (i : Nat), i < 64 →
    (and64 x y).getLsbD i = (x.getLsbD i && y.getLsbD i) ∧
    (or64 x y).getLsbD i = (x.getLsbD i || y.getLsbD i) ∧
    (xor64 x y).getLsbD i = (x.getLsbD i ^^ y.getLsbD i) ∧
    (not64 x).getLsbD i = !x.getLsbD i ∧ (not64 x).toNat = 2 ^ 64 - 1 - x.toNat

/-- R118: addition modulo 2^64, in any order and grouping. -/
def Obligations.AdditionWrapsModuloTwoToThe64 : Prop :=
  ∀ x y z : Word,
    (add64 x y).toNat = (x.toNat + y.toNat) % 2 ^ 64 ∧ add64 x y = add64 y x ∧
    add64 (add64 x y) z = add64 x (add64 y z) ∧ add64 x 0 = x ∧
    add64 0xffffffffffffffff 1 = 0 ∧ add64 0xffffffffffffffff 0xffffffffffffffff = 0xfffffffffffffffe ∧
    add64 0x8000000000000000 0x8000000000000000 = 0

/-- R119 to R122: the four sigma functions are linear over XOR. -/
def Obligations.SigmaFunctionsAreLinearOverXor : Prop :=
  ∀ x y : Word,
    bsig0 (xor64 x y) = xor64 (bsig0 x) (bsig0 y) ∧ bsig1 (xor64 x y) = xor64 (bsig1 x) (bsig1 y) ∧
    ssig0 (xor64 x y) = xor64 (ssig0 x) (ssig0 y) ∧ ssig1 (xor64 x y) = xor64 (ssig1 x) (ssig1 y)

/-- R119 to R122: which bits of the operand each bit of a sigma function is the XOR of; a shift reads 0 past bit 63. -/
def Obligations.SigmaFunctionsByBit : Prop :=
  ∀ (x : Word) (i : Nat), i < 64 →
    (bsig0 x).getLsbD i = (x.getLsbD ((i + 28) % 64) ^^ x.getLsbD ((i + 34) % 64) ^^ x.getLsbD ((i + 39) % 64)) ∧
    (bsig1 x).getLsbD i = (x.getLsbD ((i + 14) % 64) ^^ x.getLsbD ((i + 18) % 64) ^^ x.getLsbD ((i + 41) % 64)) ∧
    (ssig0 x).getLsbD i = (x.getLsbD ((i + 1) % 64) ^^ x.getLsbD ((i + 8) % 64) ^^ x.getLsbD (i + 7)) ∧
    (ssig1 x).getLsbD i = (x.getLsbD ((i + 19) % 64) ^^ x.getLsbD ((i + 61) % 64) ^^ x.getLsbD (i + 6))

/-- R123, R124: CH chooses bit by bit, MAJ is the majority bit by bit. -/
def Obligations.ChooseAndMajorityByBit : Prop :=
  ∀ (x y z : Word) (i : Nat), i < 64 →
    (ch x y z).getLsbD i = (if x.getLsbD i = true then y.getLsbD i else z.getLsbD i) ∧
    ((maj x y z).getLsbD i = true ↔
      2 ≤ (x.getLsbD i).toNat + (y.getLsbD i).toNat + (z.getLsbD i).toNat)

/-! The tables (10_state.md R41, R42) -/

/-- R41: row i names the i-th prime, and `IV[i]`, a literal of the model, is the first 64 bits of the fractional part of
its square root (log entry 10). -/
def Obligations.IvIsTheSquareRootFraction : Prop :=
  (∀ i (hi : i < 8), ivRows[i]?.map (·.prime) = some tablePrimes[i]) ∧
  ∀ i (hi : i < 8), ∃ r : Nat,
    r ^ 2 ≤ tablePrimes[i] * 2 ^ 128 ∧ tablePrimes[i] * 2 ^ 128 < (r + 1) ^ 2 ∧ iv[i].toNat = r % 2 ^ 64

/-- R42: `K[i]`, a literal of the model, is the first 64 bits of the fractional part of the cube root of the i-th prime
(log entry 10). -/
def Obligations.KIsTheCubeRootFraction : Prop :=
  ∀ i (hi : i < 80), ∃ r : Nat,
    r ^ 3 ≤ tablePrimes[i] * 2 ^ 192 ∧ tablePrimes[i] * 2 ^ 192 < (r + 1) ^ 3 ∧ kTable[i].toNat = r % 2 ^ 64

/-- R42's prime column holds the first eighty primes: primes only, in rising order, and every prime up to the last. -/
def Obligations.TablePrimesAreTheFirstEightyPrimes : Prop :=
  (∀ i (hi : i < 80), tablePrimes[i].Prime) ∧
  (∀ i j (hj : j < 80) (hij : i < j), tablePrimes[i] < tablePrimes[j]) ∧
  (∀ n : Nat, n.Prime → n ≤ 409 → n ∈ tablePrimes.toList)

/-! Schedule and compression (41_schedule.md, 42_compress.md) -/

/-- R143 with the formula of R142, in Lean's own operations on 64-bit words. -/
def Obligations.ScheduleObeysTheExtensionRule : Prop :=
  ∀ b : Block,
    (∀ i (hi : i < 16), (sched b)[i] = b[i]) ∧
    (∀ i (hi : i < 80) (_ : 16 ≤ i), (sched b)[i] =
      (sched b)[i - 16] +
      ((sched b)[i - 15].rotateRight 1 ^^^ (sched b)[i - 15].rotateRight 8 ^^^ (sched b)[i - 15] >>> 7) +
      (sched b)[i - 7] +
      ((sched b)[i - 2].rotateRight 19 ^^^ (sched b)[i - 2].rotateRight 61 ^^^ (sched b)[i - 2] >>> 6))

/-- R142 corner case: a block of sixteen zero words gives eighty zero words. -/
def Obligations.ZeroBlockGivesZeroSchedule : Prop :=
  ∀ i (hi : i < 80), (sched (Vector.replicate 16 0))[i] = 0

/-- R163, in Lean's own operations on 64-bit words. -/
def Obligations.RoundFollowsTheFormulas : Prop :=
  ∀ (k w s1 chv temp1 s0 majv temp2 : Word) (v : Working),
    s1 = v.e.rotateRight 14 ^^^ v.e.rotateRight 18 ^^^ v.e.rotateRight 41 →
    chv = (v.e &&& v.f) ^^^ (~~~v.e &&& v.g) →
    temp1 = v.h + s1 + chv + k + w →
    s0 = v.a.rotateRight 28 ^^^ v.a.rotateRight 34 ^^^ v.a.rotateRight 39 →
    majv = (v.a &&& v.b) ^^^ (v.a &&& v.c) ^^^ (v.b &&& v.c) →
    temp2 = s0 + majv →
    roundStep k w v = ⟨temp1 + temp2, v.a, v.b, v.c, v.d + temp1, v.e, v.f, v.g⟩

/-- R166: Compress is the working-variable load (R162), rounds 0 to 79 in order on the schedule (R163, R164), and the
feed-forward (R165). -/
def Obligations.CompressIsEightyRoundsAndFeedForward : Prop :=
  ∀ (s : HWords) (b : Block), ∃ v : Nat → Working,
    v 0 = ⟨s[0], s[1], s[2], s[3], s[4], s[5], s[6], s[7]⟩ ∧
    (∀ t (ht : t < 80), v (t + 1) = roundStep kTable[t] (sched b)[t] (v t)) ∧
    compress s b = #v[s[0] + (v 80).a, s[1] + (v 80).b, s[2] + (v 80).c, s[3] + (v 80).d,
      s[4] + (v 80).e, s[5] + (v 80).f, s[6] + (v 80).g, s[7] + (v 80).h]

/-- R145: an engine that keeps a window of sixteen schedule words computes the same. -/
def Obligations.WindowedCompressionIsTheSame : Prop :=
  ∀ (s : HWords) (b : Block), compressWindowed s b = compress s b

/-! The host (43_host_digest.md) -/

/-- R94: LDBLK on a ready engine fills the buffer with the block and changes nothing else; its length, RDDIG's and
HASHBLK's are 16, 8 and 17 commands. -/
def Obligations.LoadBlockFillsTheBuffer : Prop :=
  (∀ (s : State) (b : Block), s.cause = 0#2 →
    issueAll (loadBlock b) s = ({ s with w := b.map some, response := some .ok, pending := [] }, .ok [])) ∧
  (∀ b : Block, (loadBlock b).length = 16 ∧ (hashBlock b).length = 17) ∧ readDigest.length = 8

/-- R169: after one INIT, the commands of the blocks of a message leave `Compress(... Compress(IV, B_0) ..., B_(N-1))`
in H, and every response is OK. How the host issues commands and collects responses is the model's choice (log entries
1 and 14). -/
def Obligations.BlocksChainFromTheInitialState : Prop :=
  ∀ (s : State) (bs : List Block), s.cause = 0#2 →
    ∃ t, issueAll (.init :: bs.flatMap hashBlock) s = (t, .ok []) ∧
      t.h = some (bs.foldl compress iv) ∧ t.w = emptyW ∧ t.cause = 0#2

/-- R197, R190, R198: on a ready engine the host's command sequence returns the document's digest, the serialised state
after `Compress` has been folded over the padded blocks from IV; every response is OK, and the engine is left with that
state and an empty buffer. -/
def Obligations.CommandSequenceComputesTheDigest : Prop :=
  ∀ (s : State) (m : List Byte), s.cause = 0#2 → 8 * m.length ≤ 2 ^ 64 - 1 →
    ∃ t, digest (.bytes m) s = (t, .ok (sha512 m)) ∧
      t.h = some ((blocks (pad m)).foldl compress iv) ∧ t.hv = true ∧ t.w = emptyW ∧ t.cause = 0#2

/-- R210, R211, R215: a value of the wrong type and a message of 2^61 bytes or more are refused before any command, and
the engine is as it was. The error value of an over-long message is the model's choice (log entry 19). -/
def Obligations.HostRefusesBeforeAnyCommand : Prop :=
  (∀ s : State, digest .other s = (s, .error .invalidInputType)) ∧
  (∀ (s : State) (t : List Nat), utf8 t = none → digest (.text t) s = (s, .error .invalidInputType)) ∧
  (∀ (s : State) (m : List Byte), 2 ^ 61 ≤ m.length → digest (.bytes m) s = (s, .error .messageTooLong))

/-- R212: with an error latched the host returns no digest, and stops at the first response; the error value that
the caller gets is the model's choice (log entry 20). -/
def Obligations.NoDigestAfterAnError : Prop :=
  ∀ (s : State) (m : List Byte), s.cause ≠ 0#2 → 8 * m.length ≤ 2 ^ 64 - 1 →
    digest (.bytes m) s =
      ({ s with response := some (.err s.cause), pending := [] }, .error (.engineError s.cause))

/-- R193: the number of zero bytes, its range, and the residue it reaches, with the four threshold cases. -/
def Obligations.ZeroBytesReachResidue112 : Prop :=
  (∀ len : Nat, (len % 128 < 112 → zeroCount len = 111 - len % 128) ∧
    (112 ≤ len % 128 → zeroCount len = 239 - len % 128) ∧ zeroCount len ≤ 127 ∧
    (len + 1 + zeroCount len) % 128 = 112) ∧
  (∀ len : Nat, (len % 128 = 111 → zeroCount len = 0) ∧ (len % 128 = 112 → zeroCount len = 127) ∧
    (len % 128 = 127 → zeroCount len = 112) ∧ (len % 128 = 0 → zeroCount len = 111))

/-- R194: the last block ends in the bit length: `W[14]` is 0 and `W[15]` is 8*L, for every length in the domain. -/
def Obligations.LastBlockEndsInTheBitLength : Prop :=
  ∀ m : List Byte, 8 * m.length ≤ 2 ^ 64 - 1 →
    (lengthField m.length).length = 16 ∧ beNat (lengthField m.length) = 8 * m.length ∧
    (lengthField m.length).take 8 = List.replicate 8 0 ∧
    (pad m).drop ((pad m).length - 16) = lengthField m.length ∧
    ∃ b, (blocks (pad m)).getLast? = some b ∧ b[14] = 0 ∧ b[15].toNat = 8 * m.length

/-- R195: the padded buffer's size and the number of blocks. -/
def Obligations.PaddedSizeAndBlockCount : Prop :=
  ∀ m : List Byte,
    (pad m).length = m.length + 1 + zeroCount m.length + 16 ∧ (pad m).length % 128 = 0 ∧
    (m.length % 128 < 112 → (blocks (pad m)).length = m.length / 128 + 1) ∧
    (112 ≤ m.length % 128 → (blocks (pad m)).length = m.length / 128 + 2) ∧ 1 ≤ (blocks (pad m)).length

/-- R197, R267: one message of N blocks is exactly 1 + 17*N + 8 commands. -/
def Obligations.MessageTakesOnePlus17NPlus8Commands : Prop :=
  ∀ m : List Byte, (digestCommands m).length = 1 + 17 * (blocks (pad m)).length + 8

/-- R90, R196: word i of block j is the big-endian number of the eight bytes from 128*j + 8*i on, and it is the value
that the host gives to WRW i. -/
def Obligations.BlockWordsAreBigEndian : Prop :=
  (∀ (buf : List Byte) (j i : Nat) (h : 128 * j + 128 ≤ buf.length) (hi : i < 16),
    (blockAt buf j h)[i].toNat =
      (buf[128 * j + 8 * i]'(by omega)).toNat * 2 ^ 56 + (buf[128 * j + 8 * i + 1]'(by omega)).toNat * 2 ^ 48 +
      (buf[128 * j + 8 * i + 2]'(by omega)).toNat * 2 ^ 40 + (buf[128 * j + 8 * i + 3]'(by omega)).toNat * 2 ^ 32 +
      (buf[128 * j + 8 * i + 4]'(by omega)).toNat * 2 ^ 24 + (buf[128 * j + 8 * i + 5]'(by omega)).toNat * 2 ^ 16 +
      (buf[128 * j + 8 * i + 6]'(by omega)).toNat * 2 ^ 8 + (buf[128 * j + 8 * i + 7]'(by omega)).toNat) ∧
  (∀ (b : Block) (i : Nat) (hi : i < 16), (loadBlock b)[i]? = some (.wrw (BitVec.ofNat 4 i) b[i]))

/-- R91: a digest has 64 bytes, and byte 8*i + k is bits 63 - 8k down to 56 - 8k of H[i]. -/
def Obligations.DigestBytesAreBigEndianPerWord : Prop :=
  ∀ (h : HWords), (serialise h).length = 64 ∧ ∀ (i k : Nat) (hi : i < 8), k < 8 →
    (serialise h)[8 * i + k]? = some (h[i].extractLsb' (56 - 8 * k) 8)

/-- R190, R199: a digest has 64 bytes and renders as 128 digits, each one of 0-9a-f. -/
def Obligations.DigestHas64BytesAnd128Digits : Prop :=
  ∀ m : List Byte, (sha512 m).length = 64 ∧ (hexDigits (sha512 m)).length = 128 ∧
    ∀ c ∈ hexDigits (sha512 m), c ∈ "0123456789abcdef".toList
end

