-- ==== Sys2Proof/Laws/Alu.lean ====
section
/-! SUPPORT. The ALU's operations in terms of Lean's own operations on 64-bit vectors. -/

namespace Sys2Proof.Machine

theorem shr_eq (x : Word) (n : Nat) (h : 0 < n ∧ n < 64) : shr x n h = x >>> n := rfl

theorem shl_eq (x : Word) (m : Nat) (h : 0 < m ∧ m < 64) : shl x m h = x <<< m := rfl

theorem add64_eq (x y : Word) : add64 x y = x + y := by
  apply BitVec.eq_of_toNat_eq
  simp [add64]

theorem not64_eq (x : Word) : not64 x = ~~~x := by
  simp only [not64, xor64]
  rw [show (0xffffffffffffffff : Word) = BitVec.allOnes 64 by decide, BitVec.xor_allOnes]

/-- The mask of R111 changes nothing on a 64-bit word. -/
theorem and64_ones (x : Word) : and64 x 0xffffffffffffffff = x := by
  simp only [and64]
  rw [show (0xffffffffffffffff : Word) = BitVec.allOnes 64 by decide, BitVec.and_allOnes]

theorem rotr_eq (x : Word) (n : Nat) (h : 0 < n ∧ n < 64) : rotr x n h = x >>> n ||| x <<< (64 - n) := by
  simp only [rotr, and64_ones, or64, shr_eq, shl_eq]

end Sys2Proof.Machine
end

