-- ==== Sys2Proof/Laws/Decode.lean ====
section
/-! SUPPORT. What the decoder can answer (R88), said once, and the two fields of a word put together again. -/

namespace Sys2Proof

/-- The fields of a command word built from an operation code and an index (R81). -/
@[simp] theorem opField_append (op idx : BitVec 4) : opField (op ++ idx) = op := by
  revert op idx; decide

@[simp] theorem idxField_append (op idx : BitVec 4) : idxField (op ++ idx) = idx := by
  revert op idx; decide

/-- A command word is its two fields (R81). -/
theorem append_fields (cmd : BitVec 8) : opField cmd ++ idxField cmd = cmd := by
  revert cmd; decide

/-- `op = cmd[7:4]` as a number. -/
theorem opField_toNat (cmd : BitVec 8) : (opField cmd).toNat = cmd.toNat / 16 := by
  simp only [opField, BitVec.extractLsb'_toNat, Nat.shiftRight_eq_div_pow]
  have := cmd.isLt
  omega

/-- `idx = cmd[3:0]` as a number. -/
theorem idxField_toNat (cmd : BitVec 8) : (idxField cmd).toNat = cmd.toNat % 16 := by
  simp [idxField]

/-- The decoder's five answers (R88). -/
theorem decode_cases (r : Request) :
    (opField r.cmd = 1#4 ∧ idxField r.cmd = 0#4 ∧ decode r = .ok .init) ∨
    (opField r.cmd = 2#4 ∧ decode r = .ok (.wrw (idxField r.cmd) r.wdata)) ∨
    (opField r.cmd = 3#4 ∧ idxField r.cmd = 0#4 ∧ decode r = .ok .compress) ∨
    (opField r.cmd = 4#4 ∧ (idxField r.cmd).toNat < 8 ∧ decode r = .ok (.rdh (idxField r.cmd))) ∨
    (¬ (opField r.cmd = 1#4 ∧ idxField r.cmd = 0#4) ∧ opField r.cmd ≠ 2#4 ∧
      ¬ (opField r.cmd = 3#4 ∧ idxField r.cmd = 0#4) ∧ ¬ (opField r.cmd = 4#4 ∧ (idxField r.cmd).toNat < 8) ∧
      ∃ e, decode r = .error e) := by
  unfold decode
  simp only
  split
  · exact .inl ⟨‹_ ∧ _›.1, ‹_ ∧ _›.2, rfl⟩
  · split
    · exact .inr (.inl ⟨‹_›, rfl⟩)
    · split
      · exact .inr (.inr (.inl ⟨‹_ ∧ _›.1, ‹_ ∧ _›.2, rfl⟩))
      · split
        · exact .inr (.inr (.inr (.inl ⟨‹_ ∧ _›.1, ‹_ ∧ _›.2, rfl⟩)))
        · refine .inr (.inr (.inr (.inr ⟨‹_›, ‹_›, ‹_›, ‹_›, ?_⟩)))
          split <;> exact ⟨_, rfl⟩

end Sys2Proof
end

