-- ==== Sys2Proof/Laws/Host.lean ====
section
/-! SUPPORT. The host's side: issuing a sequence in two parts, and the big-endian conversions of 20_memory.md R52. -/

namespace Sys2Proof.Machine

@[simp] theorem issueAll_nil (s : State) : issueAll [] s = (s, .ok []) := rfl

/-- A command answered OK: the host goes on from the state it left (R197). -/
theorem issueAll_cons_ok {i : Instr} {is : List Instr} {s s' : State} (h : issue i s = (s', some .ok)) :
    issueAll (i :: is) s = issueAll is s' := by
  simp only [issueAll, h]

/-- A command answered with data: the word is kept and the host goes on (R197). -/
theorem issueAll_cons_data {i : Instr} {is : List Instr} {s s' s'' : State} {v : Word} {vs : List Word}
    (h : issue i s = (s', some (.okData v))) (hs : issueAll is s' = (s'', .ok vs)) :
    issueAll (i :: is) s = (s'', .ok (v :: vs)) := by
  simp only [issueAll, h, hs]

/-- A command answered `ERR`: the host stops (R212). -/
theorem issueAll_cons_err {i : Instr} {is : List Instr} {s s' : State} {c : BitVec 2}
    (h : issue i s = (s', some (.err c))) :
    issueAll (i :: is) s = (s', .error (.engineError c)) := by
  simp only [issueAll, h]

/-- Issuing two sequences one after the other: when every response to the first is OK, the second starts where it ended
and the data words are joined (R197). -/
theorem issueAll_append {is js : List Instr} {s s' : State} {vs : List Word} (h : issueAll is s = (s', .ok vs)) :
    issueAll (is ++ js) s =
      match issueAll js s' with
      | (s'', .ok ws) => (s'', .ok (vs ++ ws))
      | (s'', .error e) => (s'', .error e) := by
  induction is generalizing s vs with
  | nil =>
    cases h
    simp only [List.nil_append]
    split <;> simp_all
  | cons i is ih =>
    simp only [List.cons_append, issueAll] at h ⊢
    split at h
    · exact ih h
    · split at h
      · rename_i hi
        cases h
        rw [ih hi]
        cases issueAll js s' with
        | mk s'' res => cases res <;> rfl
      · cases h
    · cases h
    · cases h

@[simp] theorem beBytes_length (n v : Nat) : (beBytes n v).length = n := by
  induction n with
  | zero => rfl
  | succ n ih => simp [beBytes, ih]

theorem foldl_be (l : List Byte) (a : Nat) :
    l.foldl (fun acc b => acc * 256 + b.toNat) a = a * 256 ^ l.length + beNat l := by
  induction l generalizing a with
  | nil => simp [beNat]
  | cons b l ih =>
    have hb : beNat (b :: l) = (0 * 256 + b.toNat) * 256 ^ l.length + beNat l := ih _
    rw [List.foldl_cons, ih, List.length_cons, hb, Nat.pow_succ]
    ring

/-- The first byte is the most significant. -/
theorem beNat_cons (b : Byte) (l : List Byte) : beNat (b :: l) = b.toNat * 256 ^ l.length + beNat l := by
  simp only [beNat, List.foldl_cons, Nat.zero_mul, Nat.zero_add]
  exact foldl_be l b.toNat

/-- Writing a number as n bytes keeps it modulo 256^n. -/
theorem beNat_beBytes (n v : Nat) : beNat (beBytes n v) = v % 256 ^ n := by
  induction n with
  | zero => simp [beBytes, beNat, Nat.mod_one]
  | succ n ih =>
    have hm : v % 256 ^ (n + 1) = v % 256 ^ n + 256 ^ n * (v / 256 ^ n % 256) := Nat.mod_mul
    rw [beBytes, beNat_cons, ih, beBytes_length, BitVec.toNat_ofNat, hm, Nat.add_comm, Nat.mul_comm]

@[simp] theorem wordBytes_length (v : Word) : (wordBytes v).length = 8 := rfl

@[simp] theorem blocks_length (buf : List Byte) : (blocks buf).length = buf.length / 128 := by
  simp [blocks, Config.blockBytes]

/-- The j-th block of a buffer is cut at byte 128*j (R196). -/
theorem blocks_getElem (buf : List Byte) (j : Nat) (hj : j < (blocks buf).length) :
    (blocks buf)[j] = blockAt buf j (by rw [blocks_length] at hj; omega) := by
  simp [blocks]

end Sys2Proof.Machine
end

