-- ==== Sys2Proof/Laws/State.lean ====
section
/-! SUPPORT. One lemma per field per update of the shared operations, so that no later proof unfolds a record update. -/

namespace Sys2Proof.Machine

@[simp] theorem respond_cause (s : State) (r : Response) : (s.respond r).cause = s.cause := rfl
@[simp] theorem respond_h (s : State) (r : Response) : (s.respond r).h = s.h := rfl
@[simp] theorem respond_w (s : State) (r : Response) : (s.respond r).w = s.w := rfl
@[simp] theorem respond_response (s : State) (r : Response) : (s.respond r).response = some r := rfl
@[simp] theorem respond_pending (s : State) (r : Response) : (s.respond r).pending = s.pending := rfl

@[simp] theorem refuse_cause (s : State) : s.refuse.cause = s.cause := rfl
@[simp] theorem refuse_h (s : State) : s.refuse.h = s.h := rfl
@[simp] theorem refuse_w (s : State) : s.refuse.w = s.w := rfl
@[simp] theorem refuse_response (s : State) : s.refuse.response = some (.err s.cause) := rfl
@[simp] theorem refuse_pending (s : State) : s.refuse.pending = s.pending := rfl

@[simp] theorem raise_cause (s : State) (c : ErrorCause) :
    (s.raise c).cause = if s.cause = 0#2 then c.code else s.cause := by
  unfold State.raise; split <;> rfl
@[simp] theorem raise_h (s : State) (c : ErrorCause) : (s.raise c).h = s.h := by
  unfold State.raise; split <;> rfl
@[simp] theorem raise_w (s : State) (c : ErrorCause) : (s.raise c).w = s.w := by
  unfold State.raise; split <;> rfl
@[simp] theorem raise_response (s : State) (c : ErrorCause) :
    (s.raise c).response = some (.err (s.raise c).cause) := rfl
@[simp] theorem raise_pending (s : State) (c : ErrorCause) : (s.raise c).pending = s.pending := by
  unfold State.raise; split <;> rfl

@[simp] theorem applyReset_cause (s : State) : s.applyReset.cause = 0#2 := rfl
@[simp] theorem applyReset_h (s : State) : s.applyReset.h = none := rfl
@[simp] theorem applyReset_w (s : State) : s.applyReset.w = emptyW := rfl
@[simp] theorem applyReset_response (s : State) : s.applyReset.response = none := rfl
@[simp] theorem applyReset_pending (s : State) : s.applyReset.pending = s.pending := rfl

/-- `HV` looks at `h` alone (R33). -/
theorem hv_eq (s : State) : s.hv = s.h.isSome := rfl

/-- Two states with the same fields are the same state. -/
theorem State.eq_of_fields {s t : State} (hc : s.cause = t.cause) (hh : s.h = t.h) (hw : s.w = t.w)
    (hr : s.response = t.response) (hp : s.pending = t.pending) : s = t := by
  cases s; cases t; simp_all

end Sys2Proof.Machine
end

