-- ==== Sys2Proof/Laws/Operands.lean ====
section
/-! SUPPORT. The operand forms: what a write of one buffer word leaves, when the whole block is present, and how the
views HV and WV read it. -/

namespace Sys2Proof.Machine

/-- A buffer write changes its own entry and no other (R141). -/
theorem writeW_getElem (w : Vector (Option Word) 16) (idx : BitVec 4) (v : Word) (j : Nat) (hj : j < 16) :
    (writeW w idx v)[j] = if idx.toNat = j then some v else w[j] := by
  unfold writeW
  rw [Vector.getElem_set]
  simp only [indexOf_eq]

/-- A state word is read at its index (R168). -/
theorem readH_eq (h : HWords) (idx : BitVec 4) (hi : indexOf idx < 8) :
    readH h idx hi = h[idx.toNat]'(by rwa [indexOf_eq] at hi) := by
  simp only [readH, indexOf_eq]

@[simp] theorem emptyW_getElem (j : Nat) (hj : j < 16) : emptyW[j] = none := by
  simp [emptyW]

/-- All sixteen words present: the buffer is some block's words. -/
theorem presentBlock_eq_some_iff (w : Vector (Option Word) 16) (b : Block) :
    presentBlock w = some b ↔ w = b.map some := by
  unfold presentBlock
  constructor
  · intro h
    split at h
    · rename_i hp
      cases h
      ext i hi : 1
      simp
    · cases h
  · rintro rfl
    rw [dif_pos (by intro i; simp)]
    congr 1
    ext i hi : 1
    simp

@[simp] theorem presentBlock_map_some (b : Block) : presentBlock (b.map some) = some b :=
  (presentBlock_eq_some_iff _ _).mpr rfl

theorem presentBlock_eq_none_iff (w : Vector (Option Word) 16) :
    presentBlock w = none ↔ ∃ i : Fin 16, w[i].isSome = false := by
  unfold presentBlock
  split
  · rename_i hp
    refine ⟨fun h => (nomatch h), fun ⟨i, hi⟩ => ?_⟩
    exact absurd (hp i) (by rw [hi]; decide)
  · rename_i hp
    simp only [not_forall, Bool.not_eq_true] at hp
    exact ⟨fun _ => hp, fun _ => rfl⟩

theorem presentBits_lt (l : List (Option Word)) : presentBits l < 2 ^ l.length := by
  induction l with
  | nil => simp [presentBits]
  | cons o os ih =>
    simp only [presentBits, List.length_cons, Nat.pow_succ]
    split <;> omega

theorem presentBits_testBit (l : List (Option Word)) (i : Nat) (hi : i < l.length) :
    (presentBits l).testBit i = l[i].isSome := by
  induction l generalizing i with
  | nil => simp at hi
  | cons o os ih =>
    cases i with
    | zero => cases o <;> simp [presentBits, Nat.testBit_zero, Nat.add_mod]
    | succ i =>
      have := ih i (by simpa using hi)
      rw [List.getElem_cons_succ, ← this, Nat.testBit_succ, presentBits]
      congr 1
      split <;> omega

/-- `WV[i]` is 1 exactly when `W[i]` is present (R24). -/
theorem wv_getLsbD (s : State) (i : Nat) (hi : i < 16) : s.wv.getLsbD i = s.w[i].isSome := by
  simp only [State.wv, BitVec.getLsbD_ofNat, hi, decide_true, Bool.true_and]
  rw [presentBits_testBit _ _ (by simpa using hi)]
  simp

/-- An empty buffer has WV = 0 (R161, R167). -/
theorem wv_of_empty {s : State} (h : s.w = emptyW) : s.wv = 0#16 := by
  apply BitVec.eq_of_getLsbD_eq
  intro i hi
  rw [wv_getLsbD _ _ hi]
  simp [h]

/-- WV is 0xffff exactly when the block is present (R24, R167). -/
theorem wv_eq_full_iff (s : State) : s.wv = 0xffff#16 ↔ ∃ b, presentBlock s.w = some b := by
  have ones : ∀ i, i < 16 → (0xffff#16).getLsbD i = true := by decide
  constructor
  · intro h
    cases hb : presentBlock s.w with
    | some b => exact ⟨b, rfl⟩
    | none =>
      obtain ⟨i, hi⟩ := (presentBlock_eq_none_iff _).mp hb
      have hw := wv_getLsbD s i i.isLt
      rw [h, ones i i.isLt] at hw
      exact absurd (hw.trans hi) (by decide)
  · rintro ⟨b, hb⟩
    rw [presentBlock_eq_some_iff] at hb
    apply BitVec.eq_of_getLsbD_eq
    intro i hi
    rw [wv_getLsbD _ _ hi, ones i hi]
    simp [hb]

end Sys2Proof.Machine
end

