-- ==== Sys2Proof/Laws/Ops.lean ====
section
/-! SUPPORT. Said once, everything the shared operations, the four meanings and a step can do. -/

namespace Sys2Proof.Machine

theorem unlessLatched_of_ready {s : State} (h : s.cause = 0#2) (body : State → State) :
    s.unlessLatched body = body s := if_pos h

theorem unlessLatched_of_latched {s : State} (h : s.cause ≠ 0#2) (body : State → State) :
    s.unlessLatched body = s.refuse := if_neg h

/-- With an error latched, error entry is the refusal (R224, R225, R227). -/
theorem raise_of_latched {s : State} (h : s.cause ≠ 0#2) (c : ErrorCause) : s.raise c = s.refuse := by
  simp [State.raise, State.refuse, h]

/-- With none latched, error entry records the code (R224). -/
theorem raise_of_ready {s : State} (h : s.cause = 0#2) (c : ErrorCause) :
    s.raise c = { s with cause := c.code, response := some (.err c.code) } := by
  simp [State.raise, State.respond, h]

/-- What one command does to a state with no error latched: the five successes and errors of R161, R141, R167, R168. -/
inductive Ran (i : Instr) (s s' : State) : Prop where
  | initialised (hi : i = .init) (hs : s' = { s with h := some iv, w := emptyW, response := some .ok })
  | wrote (idx : BitVec 4) (v : Word) (hi : i = .wrw idx v)
      (hs : s' = { s with w := writeW s.w idx v, response := some .ok })
  | compressed (h : HWords) (b : Block) (hi : i = .compress) (hh : s.h = some h) (hw : s.w = b.map some)
      (hs : s' = { s with h := some (compress h b), w := emptyW, response := some .ok })
  | read (idx : BitVec 4) (h : HWords) (hlt : indexOf idx < 8) (hi : i = .rdh idx) (hh : s.h = some h)
      (hs : s' = { s with response := some (.okData (readH h idx hlt)) })
  | noDigest (hi : i = .compress ∨ ∃ idx, i = .rdh idx ∧ indexOf idx < 8) (hh : s.h = none) (hs : s' = s.raise .hUninit)
  | noBlock (h : HWords) (hi : i = .compress) (hh : s.h = some h) (hw : presentBlock s.w = none)
      (hs : s' = s.raise .blockIncomplete)
  | badIndex (idx : BitVec 4) (hi : i = .rdh idx) (hlt : ¬ indexOf idx < 8) (hs : s' = s.raise .illegalCmd)

/-- Every meaning answers a next state (R220, R267). -/
theorem exec_next (i : Instr) (s : State) : ∃ s', exec i s = .next s' := by
  cases i <;> exact ⟨_, rfl⟩

/-- With an error latched every command is refused (R225). -/
theorem exec_of_latched {s : State} (h : s.cause ≠ 0#2) (i : Instr) : exec i s = .next s.refuse := by
  cases i <;>
    simp only [exec, execInit, execWrw, execCompress, execRdh, unlessLatched_of_latched h]

/-- With none latched, one of the cases of `Ran`. -/
theorem exec_of_ready {s s' : State} {i : Instr} (h0 : s.cause = 0#2) (h : exec i s = .next s') : Ran i s s' := by
  cases i with
  | init =>
    simp only [exec, execInit, unlessLatched_of_ready h0, Host.Outcome.next.injEq] at h
    exact .initialised rfl h.symm
  | wrw idx v =>
    simp only [exec, execWrw, unlessLatched_of_ready h0, Host.Outcome.next.injEq] at h
    exact .wrote idx v rfl h.symm
  | compress =>
    simp only [exec, execCompress, unlessLatched_of_ready h0, Host.Outcome.next.injEq] at h
    split at h
    · exact .noDigest (.inl rfl) ‹_› h.symm
    · exact .noBlock _ rfl ‹_› ‹_› h.symm
    · rename_i hh hw
      exact .compressed _ _ rfl hh ((presentBlock_eq_some_iff _ _).mp hw) h.symm
  | rdh idx =>
    simp only [exec, execRdh, unlessLatched_of_ready h0, Host.Outcome.next.injEq] at h
    split at h
    · rename_i hlt
      split at h
      · exact .noDigest (.inr ⟨idx, rfl, hlt⟩) ‹_› h.symm
      · exact .read idx _ hlt rfl ‹_› h.symm
    · rename_i hlt
      exact .badIndex idx rfl hlt h.symm

/-- Everything a meaning can do: refuse, or one of the cases of `Ran`. -/
theorem exec_cases {s s' : State} {i : Instr} (h : exec i s = .next s') :
    (s.cause ≠ 0#2 ∧ s' = s.refuse) ∨ (s.cause = 0#2 ∧ Ran i s s') := by
  by_cases h0 : s.cause = 0#2
  · exact .inr ⟨h0, exec_of_ready h0 h⟩
  · rw [exec_of_latched h0] at h
    cases h
    exact .inl ⟨h0, rfl⟩

/-- What one step can do: wait, reset, refuse, run a command, or find an illegal word. -/
theorem step_cases {s s' : State} (h : step s = .next s') :
    (s.pending = [] ∧ s' = s) ∨
    (∃ rest, s.pending = .reset :: rest ∧ s' = { State.reset with pending := rest }) ∨
    (∃ r rest, s.pending = .request r :: rest ∧ s.cause ≠ 0#2 ∧ s' = { s with pending := rest }.refuse) ∨
    (∃ r rest i, s.pending = .request r :: rest ∧ s.cause = 0#2 ∧ decode r = .ok i ∧ Ran i { s with pending := rest } s') ∨
    (∃ r rest e, s.pending = .request r :: rest ∧ s.cause = 0#2 ∧ decode r = .error e ∧
      s' = { s with pending := rest }.raise .illegalCmd) := by
  unfold step at h
  split at h
  · exact .inl ⟨‹_›, by cases h; rfl⟩
  · rename_i ev rest hp
    cases ev with
    | reset => cases h; exact .inr (.inl ⟨rest, hp, rfl⟩)
    | request r =>
      simp only [runEvent, transact] at h
      by_cases h0 : s.cause = 0#2
      · split at h
        · exact .inr (.inr (.inr (.inl ⟨r, rest, _, hp, h0, ‹_›, exec_of_ready h0 h⟩)))
        · cases h; exact .inr (.inr (.inr (.inr ⟨r, rest, _, hp, h0, ‹_›, rfl⟩)))
      · refine .inr (.inr (.inl ⟨r, rest, hp, h0, ?_⟩))
        split at h
        · rw [exec_of_latched (by exact h0)] at h; cases h; rfl
        · cases h; exact raise_of_latched (s := { s with pending := rest }) h0 _

/-- Every step answers a next state. -/
theorem step_next (s : State) : ∃ s', step s = .next s' := by
  unfold step
  split
  · exact ⟨_, rfl⟩
  · rename_i ev rest hp
    cases ev with
    | reset => exact ⟨_, rfl⟩
    | request r =>
      simp only [runEvent, transact]
      split
      · exact exec_next _ _
      · exact ⟨_, rfl⟩

end Sys2Proof.Machine
end

