-- ==== Sys2Proof/Laws/PerInstr.lean ====
section
/-! SUPPORT. Statements about every instruction as a term, one lemma per constructor: the command word of a well-formed
instruction is selected by its own row of the opcode table (R83). -/

namespace Sys2Proof.Laws.OpcodeMatch

/-- The row of an instruction's mnemonic selects its command word. -/
def Statement (i : Instr) : Prop :=
  WellFormed i → ∃ row ∈ opcodeRows, row.mnemonic = mnemonic i ∧ row.selects (encode i).cmd = true

theorem init : Statement .init :=
  fun _ => ⟨⟨"INIT", 0x10, 0xff⟩, by simp [opcodeRows], rfl, by decide⟩

theorem wrw (idx : BitVec 4) (wdata : Word) : Statement (.wrw idx wdata) := by
  intro _
  refine ⟨⟨"WRW", 0x20, 0xf0⟩, by simp [opcodeRows], rfl, ?_⟩
  have h : ∀ idx : BitVec 4, ((0x2#4 ++ idx) &&& 0xf0#8 == 0x20#8) = true := by decide
  exact h idx

theorem compress : Statement .compress :=
  fun _ => ⟨⟨"COMPRESS", 0x30, 0xff⟩, by simp [opcodeRows], rfl, by decide⟩

theorem rdh (idx : BitVec 4) : Statement (.rdh idx) := by
  intro hw
  refine ⟨⟨"RDH", 0x40, 0xf8⟩, by simp [opcodeRows], rfl, ?_⟩
  have h : ∀ idx : BitVec 4, idx.toNat < 8 → ((0x4#4 ++ idx) &&& 0xf8#8 == 0x40#8) = true := by decide
  exact h idx (by simpa [WellFormed, wellFormed] using hw)

end Sys2Proof.Laws.OpcodeMatch
end

