-- ==== Sys2Proof/Laws/Schedule.lean ====
section
/-! SUPPORT. The schedule under construction: an extension step keeps the words already there and appends one (R142),
and the sliding window (R145) entry by entry. -/

namespace Sys2Proof.Machine

/-- The words of the block itself. -/
theorem schedTo_zero (b : Block) : schedTo b 0 = b := rfl

/-- A step keeps every word already computed. -/
theorem schedTo_succ_of_lt (b : Block) (n i : Nat) (hi : i < 16 + n) :
    (schedTo b (n + 1))[i]'(by omega) = (schedTo b n)[i] := by
  simp only [schedTo]
  exact Vector.getElem_push_lt hi

/-- The word a step appends. -/
theorem schedTo_succ_last (b : Block) (n : Nat) :
    (schedTo b (n + 1))[16 + n]'(by omega) =
      extendWord (schedTo b n)[n] (schedTo b n)[n + 1] (schedTo b n)[n + 9] (schedTo b n)[n + 14] := by
  simp only [schedTo]
  exact Vector.getElem_push_eq

/-- A word keeps its value in every later stage. -/
theorem schedTo_stable (b : Block) {n m : Nat} (h : n ≤ m) (i : Nat) (hi : i < 16 + n) :
    (schedTo b m)[i]'(by omega) = (schedTo b n)[i] := by
  obtain ⟨k, rfl⟩ := Nat.exists_eq_add_of_le h
  induction k with
  | zero => rfl
  | succ k ih =>
    rw [← ih (by omega)]
    exact schedTo_succ_of_lt b (n + k) i (by omega)

/-- A word of the finished schedule is the word of any stage that has it (R143). -/
theorem sched_getElem (b : Block) (n i : Nat) (hn : n ≤ 64) (hi : i < 16 + n) :
    (sched b)[i]'(by omega) = (schedTo b n)[i] :=
  schedTo_stable b hn i hi

theorem slideWindow_of_lt (v : Block) (i : Nat) (hi : i < 15) : (slideWindow v)[i] = v[i + 1] := by
  simp [slideWindow, hi]

theorem slideWindow_last (v : Block) : (slideWindow v)[15] = extendWord v[0] v[1] v[9] v[14] := by
  simp [slideWindow]

/-- The rounds, one at a time (R164). -/
theorem workingAfter_succ (sch : Schedule) (v : Working) (n : Nat) (hn : n + 1 ≤ 80) :
    workingAfter sch v (n + 1) hn = roundStep kTable[n] sch[n] (workingAfter sch v n (Nat.le_of_succ_le hn)) := rfl

end Sys2Proof.Machine
end

