-- ==== Sys2Proof/Machine/Assembly.lean ====
section
/-! DEFINITION. The textual form of command sequences (30_encoding.md R93) and the pseudo-commands (R94). The engine
sees none of it: a line stands for the events the host applies. -/

namespace Sys2Proof.Machine

/-- What a line of text can say (R93, R94). -/
inductive Item where
  | init
  | wrw (i : BitVec 4) (word : Word)
  | compress
  /-- `RDH <i>`, i in 0..7. -/
  | rdh (i : BitVec 3)
  | reset
  /-- `.byte 0x<hh>`: a raw command word. -/
  | byte (hh : BitVec 8)
  | ldblk (words : Block)
  | rddig
  | hashblk (words : Block)
  deriving DecidableEq, Repr

/-- One line: what it says, if anything, and the response written after `->`, if any (R93). -/
structure Line where
  item : Option Item
  expected : Option Response
  deriving DecidableEq, Repr

/-- A command as an event of the host. -/
def instrEvent (i : Instr) : HostEvent := .request (encode i)

/-- The events a line stands for (R93, R94). A raw word that is a WRW has no data operand in this form, so it has no
meaning (log entry 15); for every other raw word the data operand is ignored (R82). -/
def Item.events : Item → Option (List HostEvent)
  | .init => some [instrEvent .init]
  | .wrw i word => some [instrEvent (.wrw i word)]
  | .compress => some [instrEvent .compress]
  | .rdh i => some [instrEvent (.rdh (i.setWidth 4))]
  | .reset => some [.reset]
  | .byte hh => if opField hh = 2 then none else some [.request ⟨hh, 0⟩]
  | .ldblk words => some ((loadBlock words).map instrEvent)
  | .rddig => some (readDigest.map instrEvent)
  | .hashblk words => some ((hashBlock words).map instrEvent)

/-- The text before a `#` (R93). -/
def stripComment (text : List Char) : List Char := text.takeWhile (· != '#')

/-- A blank between words (log entry 15). -/
def isBlank (c : Char) : Bool := c == ' ' || c == '\t'

/-- The words of a line, a comma being a word of its own (log entry 15). -/
def words : List Char → List Char → List (List Char)
  | acc, [] => if acc.isEmpty then [] else [acc.reverse]
  | acc, c :: cs =>
    if isBlank c then (if acc.isEmpty then words [] cs else acc.reverse :: words [] cs)
    else if c == ',' then (if acc.isEmpty then [','] :: words [] cs else acc.reverse :: [','] :: words [] cs)
    else words (c :: acc) cs

/-- The value of a hexadecimal digit. -/
def hexValue (c : Char) : Option Nat :=
  if '0' ≤ c ∧ c ≤ '9' then some (c.toNat - 48)
  else if 'a' ≤ c ∧ c ≤ 'f' then some (c.toNat - 87)
  else if 'A' ≤ c ∧ c ≤ 'F' then some (c.toNat - 55)
  else none

/-- Digits of a base read as a number, most significant first. -/
def readDigits (base : Nat) (digit : Char → Option Nat) : Nat → List Char → Option Nat
  | acc, [] => some acc
  | acc, c :: cs =>
    match digit c with
    | some d => readDigits base digit (acc * base + d) cs
    | none => none

/-- `0x` followed by exactly n hexadecimal digits (R9, R93). -/
def readHex (n : Nat) : List Char → Option Nat
  | '0' :: 'x' :: ds => if ds.length = n then readDigits 16 hexValue 0 ds else none
  | _ => none

/-- A decimal number below a bound (R93). -/
def readDecimal (bound : Nat) (ds : List Char) : Option Nat :=
  if ds.isEmpty then none
  else
    match readDigits 10 (fun c => if '0' ≤ c ∧ c ≤ '9' then some (c.toNat - 48) else none) 0 ds with
    | some v => if v < bound then some v else none
    | none => none

/-- A data word, `0x` and sixteen digits (R93). -/
def readWord (t : List Char) : Option Word := (readHex 16 t).map (BitVec.ofNat 64)

/-- The sixteen words of LDBLK and HASHBLK (R94). -/
def readBlock (ts : List (List Char)) : Option Block :=
  let ws := ts.filterMap readWord
  if h : ws.length = 16 ∧ ts.length = 16 then some ⟨ws.toArray, by simpa using h.1⟩ else none

/-- The words before `->`: one command, pseudo-command or RESET (R93, R94). -/
def readItem (ts : List (List Char)) : Option Item :=
  match ts with
  | [] => none
  | t :: args =>
    if t = "INIT".toList then (if args.isEmpty then some .init else none)
    else if t = "COMPRESS".toList then (if args.isEmpty then some .compress else none)
    else if t = "RESET".toList then (if args.isEmpty then some .reset else none)
    else if t = "RDDIG".toList then (if args.isEmpty then some .rddig else none)
    else if t = "WRW".toList then
      match args with
      | [i, [','], w] =>
        match readDecimal 16 i, readWord w with
        | some i, some w => some (.wrw (BitVec.ofNat 4 i) w)
        | _, _ => none
      | _ => none
    else if t = "RDH".toList then
      match args with
      | [i] => (readDecimal 8 i).map fun i => .rdh (BitVec.ofNat 3 i)
      | _ => none
    else if t = ".byte".toList then
      match args with
      | [b] => (readHex 2 b).map fun b => .byte (BitVec.ofNat 8 b)
      | _ => none
    else if t = "LDBLK".toList then (readBlock args).map .ldblk
    else if t = "HASHBLK".toList then (readBlock args).map .hashblk
    else none

/-- The words after `->`: `OK`, a data word, or `ERR c` with c in 1..3 (R93). -/
def readResponse (ts : List (List Char)) : Option Response :=
  match ts with
  | [t] => if t = "OK".toList then some .ok else (readWord t).map .okData
  | [t, c] =>
    if t = "ERR".toList then
      match readDecimal 4 c with
      | some 0 => none
      | some n => some (.err (BitVec.ofNat 2 n))
      | none => none
    else none
  | _ => none

/-- One line of text (R93); `none` where it is not of the form. -/
def readLine (text : List Char) : Option Line :=
  let ts := words [] (stripComment text)
  let before := ts.takeWhile (· != "->".toList)
  let after := ts.dropWhile (· != "->".toList)
  match before, after with
  | [], [] => some ⟨none, none⟩
  | _, [] => (readItem before).map fun i => ⟨some i, none⟩
  | _, _ :: rest =>
    match readItem before, readResponse rest with
    | some i, some r => some ⟨some i, some r⟩
    | _, _ => none

/-- The events of a whole text, line by line (R93). -/
def assemble : List (List Char) → Option (List HostEvent)
  | [] => some []
  | l :: ls =>
    match readLine l with
    | some ⟨none, _⟩ => assemble ls
    | some ⟨some i, _⟩ =>
      match i.events, assemble ls with
      | some es, some rest => some (es ++ rest)
      | _, _ => none
    | none => none

end Sys2Proof.Machine
end

