-- ==== Sys2Proof/Tests/Slice0.lean ====
section
/-! SUPPORT. The model's own tests. Expected values come from the spec: its operation map (R83), its worked examples,
and the vectors of 95_test_vectors.md (V<n>, P<n>). The witnesses at the end meet all hypotheses of the statements in
Certificates/Slice0/Obligations.lean. -/

namespace Sys2Proof.Tests

open Sys2Proof Sys2Proof.Machine

/-! Helpers -/

/-- The next state, where there is one. -/
def after : Host.Outcome State Fault Refusal → Option State
  | .next s => some s
  | .fault _ => none
  | .refused _ => none

/-- The block of the message "abc" (95_test_vectors.md 2.2). -/
def abcBlock : Block := #v[0x6162638000000000, 0, 0, 0, 0, 0, 0, 0, 0, 0, 0, 0, 0, 0, 0, 0x0000000000000018]

/-- An engine after INIT. -/
def initialised : State := { State.reset with h := some iv }

/-- An engine after INIT and LDBLK of the "abc" block. -/
def loaded : State := { initialised with w := abcBlock.map some }

/-- An engine after INIT with only W[0..14] written (P4). -/
def lacksLast : State := { loaded with w := loaded.w.set 15 none }

/-- An engine with an error latched. -/
def latched (c : BitVec 2) : State := { State.reset with cause := c }

/-- A state with one request pending. -/
def asked (s : State) (cmd : BitVec 8) : State := { s with pending := [.request ⟨cmd, 0⟩] }

/-! Sizes (R7, R8) and well-formedness (R82) -/

theorem test_sizes_of_the_types : HWords = Vector (BitVec Config.wordBits) Config.nState ∧
    Block = Vector (BitVec Config.dataBits) Config.blockWords ∧ Config.blockBytes = 8 * Config.blockWords ∧
    Config.digestBytes = 8 * Config.nState ∧ Config.nRounds = Config.nK ∧ Config.nRounds = Config.nSched ∧
    opcodeRows.length = Config.nCommands ∧ Config.cmdBits = 8 ∧ Config.causeBits = 2 :=
  ⟨rfl, rfl, rfl, rfl, rfl, rfl, rfl, rfl, rfl⟩

/-- RDH with bit 3 of idx set is ill formed (R82); the largest legal index is not. -/
theorem test_rdh_index_8_is_ill_formed : ¬ WellFormed (.rdh 8) ∧ ¬ WellFormed (.rdh 15) ∧ WellFormed (.rdh 7) := by decide

/-! Decoding: words written out bit by bit from R81 and R83 -/

theorem test_decode_init : decode ⟨0b0001_0000, 5⟩ = .ok .init := by decide
theorem test_decode_wrw : decode ⟨0b0010_0011, 0x18⟩ = .ok (.wrw 3 0x18) := by decide
theorem test_decode_compress : decode ⟨0b0011_0000, 5⟩ = .ok .compress := by decide
theorem test_decode_rdh : decode ⟨0b0100_0111, 5⟩ = .ok (.rdh 7) := by decide

/-- The nearest illegal neighbours of V120. -/
theorem test_decode_illegal_neighbours :
    [0x00, 0x0f, 0x11, 0x1f, 0x31, 0x3f, 0x48, 0x4f, 0x50, 0xff].all (fun c => !isLegal c) = true := by decide

/-- 26 of the 256 words are legal (R83). -/
theorem test_decode_26_legal_words : ((List.range 256).filter fun c => isLegal (BitVec.ofNat 8 c)).length = 26 := by
  decide +kernel

theorem test_decodeTableWord_wrw : decodeTableWord 8 0x2f = some (.wrw 15 0) ∧
    decodeTableWord 72 0x182f = some (.wrw 15 0x18) ∧ decodeTableWord 8 0x48 = none := by decide

theorem test_encode_words : encode (.wrw 3 0x18) = ⟨0x23, 0x18⟩ ∧ encode .init = ⟨0x10, 0⟩ ∧
    encode .compress = ⟨0x30, 0⟩ ∧ encode (.rdh 7) = ⟨0x47, 0⟩ := by decide

/-! The commands -/

/-- R161's example: INIT after reset. -/
theorem test_init_after_reset :
    (after (step (asked State.reset 0x10))).map (fun t => (t.h.map fun h => (h[0], h[7]), t.hv, t.wv, t.response)) =
      some (some (0x6a09e667f3bcc908, 0x5be0cd19137e2179), true, 0, some .ok) := by
  decide

/-- P6: INIT in mid-message empties a half-written buffer. -/
theorem test_init_empties_the_buffer : (after (exec .init lacksLast)).map (·.wv) = some 0 := by decide

/-- R141's example: WRW 15 with W[15] empty. -/
theorem test_wrw_15 : (after (exec (.wrw 15 0x18) State.reset)).map (fun t => (t.w[15], t.wv, t.response)) =
    some (some 0x18, 0x8000, some .ok) := by decide

/-- P6: a second WRW to an index replaces the first value. -/
theorem test_wrw_overwrites :
    (after (exec (.wrw 0 0x1122) loaded)).map (fun t => (t.w[0], t.w[15], t.wv)) =
      some (some 0x1122, some 0x18, 0xffff) := by decide +kernel

/-- R167's example, vector V2: COMPRESS of the "abc" block from IV. -/
theorem test_compress_abc : compress iv abcBlock =
    #v[0xddaf35a193617aba, 0xcc417349ae204131, 0x12e6fa4e89a97ea2, 0x0a9eeee64b55d39a,
       0x2192992a274fc1a8, 0x36ba3c23a3feebbd, 0x454d4423643ce80e, 0x2a9ac94fa54ca49f] := by decide +kernel

/-- P4: COMPRESS with W[15] missing latches BLOCK_INCOMPLETE and changes nothing else. -/
theorem test_compress_incomplete :
    after (exec .compress lacksLast) = some { lacksLast with cause := 3, response := some (.err 3) } := by
  decide +kernel

/-- R168 case (a): directly after INIT, RDH 7 returns IV[7]. -/
theorem test_rdh_after_init :
    after (exec (.rdh 7) initialised) = some { initialised with response := some (.okData 0x5be0cd19137e2179) } := by
  decide

/-- P4: RDH before INIT is H_UNINIT. -/
theorem test_rdh_before_init : (after (exec (.rdh 3) State.reset)).map (·.response) = some (some (.err 2)) := by decide

/-! Errors and reset -/

/-- P5: 38 is illegal, and ILLEGAL_CMD wins over H_UNINIT (R226). -/
theorem test_illegal_word_wins : (after (step (asked State.reset 0x38))).map (·.cause) = some 1 := by decide

/-- P4: with H_UNINIT latched, INIT is refused with the latched cause. -/
theorem test_init_refused_when_latched :
    after (step (asked (latched 2) 0x10)) = some { latched 2 with response := some (.err 2) } := by decide

/-- R260: the reset event clears a latched error. -/
theorem test_reset_clears_the_error :
    after (step { latched 3 with pending := [.reset] }) = some State.reset := by decide

theorem test_engine_waits : after (step State.reset) = some State.reset := by decide

theorem test_withFetchWord_runs_next :
    (after (step (State.reset.withFetchWord 8 0x20))).map (fun t => (t.w[0], t.pending)) = some (some 0, []) := by decide

/-! The ALU, schedule and compression -/

theorem test_V31_V32_rotr : rotr 0x8000000000000000 63 = 1 ∧ rotr 0x0123456789abcdef 8 = 0xef0123456789abcd := by decide
theorem test_V42_shr : shr 0x0123456789abcdef 7 = 0x0002468acf13579b := by decide
theorem test_R113_shl : shl 0x0123456789abcdef 56 = 0xef00000000000000 := by decide
theorem test_R115_or : or64 0x0123456789abcdef 0xff00ff00ff00ff00 = 0xff23ff67ffabffef := by decide
theorem test_V48_add64 : add64 0x6a09e667f3bcc908 0xbb67ae8584caa73b = 0x257194ed78877043 := by decide
theorem test_V50_not : not64 0x0123456789abcdef = 0xfedcba9876543210 := by decide
theorem test_V57_bsig0 : bsig0 0x0123456789abcdef = 0xb7c57a100c7ec1ab := by decide
theorem test_V66_bsig1 : bsig1 0x0123456789abcdef = 0x7703112333475567 := by decide
theorem test_V75_ssig0 : ssig0 0x0123456789abcdef = 0x6f92c77c6c4f1aa1 := by decide
theorem test_V84_ssig1 : ssig1 0x0123456789abcdef = 0x70a3460dbbd4317a := by decide
theorem test_V94_ch : ch 0xf0f0f0f0f0f0f0f0 0xcccccccccccccccc 0xaaaaaaaaaaaaaaaa = 0xcacacacacacacaca := by decide
theorem test_V99_maj : maj 0xf0f0f0f0f0f0f0f0 0xcccccccccccccccc 0xaaaaaaaaaaaaaaaa = 0xe8e8e8e8e8e8e8e8 := by decide

/-- V20: the last schedule word of the "abc" block. -/
theorem test_V20_schedule : (sched abcBlock)[79] = 0x92aeeed1a7bcf7d2 := by decide +kernel

/-- V21: the working variables after round 0, the example of R163. -/
theorem test_V21_round_0 : roundStep kTable[0] 0x6162638000000000 (loadWorking iv) =
    ⟨0xf6afceb8bcfcddf5, 0x6a09e667f3bcc908, 0xbb67ae8584caa73b, 0x3c6ef372fe94f82b,
     0x58cb02347ab51f91, 0x510e527fade682d1, 0x9b05688c2b3e6c1f, 0x1f83d9abfb41bd6b⟩ := by decide +kernel

/-! The host -/

/-- V14 and 95_test_vectors.md 2.2: the one block of "abc". -/
theorem test_abc_pads_to_its_block : blocks (pad [0x61, 0x62, 0x63]) = [abcBlock] := by decide +kernel

/-- V15 and V16: the two sides of the padding threshold. -/
theorem test_zero_count_threshold : zeroCount 111 = 0 ∧ zeroCount 112 = 127 ∧ zeroCount 127 = 112 ∧ zeroCount 128 = 111 := by
  decide

/-- R91's example. -/
theorem test_word_bytes : wordBytes 0xddaf35a193617aba = [0xdd, 0xaf, 0x35, 0xa1, 0x93, 0x61, 0x7a, 0xba] := by decide

theorem test_hex_digits : hexDigits [0xdd, 0x0a] = ['d', 'd', '0', 'a'] := by decide

/-- ASCII text is its own bytes (R214). -/
theorem test_utf8_ascii : utf8 [0x61, 0x62, 0x63] = some [0x61, 0x62, 0x63] ∧ utf8 [0xd800] = none := by decide

/-- R93's example line and its encoding. -/
theorem test_read_wrw_line : readLine "WRW 3, 0x0000000000000018   # three -> x".toList = some ⟨some (.wrw 3 0x18), none⟩ ∧
    (Item.wrw 3 0x18).events = some [.request ⟨0x23, 0x18⟩] := by decide

theorem test_read_other_lines :
    readLine "RDH 7 -> 0x2a9ac94fa54ca49f".toList = some ⟨some (.rdh 7), some (.okData 0x2a9ac94fa54ca49f)⟩ ∧
    readLine ".byte 0x4f -> ERR 1".toList = some ⟨some (.byte 0x4f), some (.err 1)⟩ ∧
    readLine "RDH 8".toList = none := by decide

/-- One step of the second engine leaves the first alone (R65). -/
theorem test_cluster_step :
    (match clusterStep [latched 1, asked State.reset 0x10] ⟨1, by decide⟩ with
      | .next es => es.map (·.cause) | .fault _ => [] | .refused _ => []) = [1, 0] := by decide

/-! Witnesses: the hypotheses of the statements, met together -/

/-- DecoderIsTheTotalFunctionOfTheFields: the boundary words of each clause. -/
theorem witness_decoder_clauses :
    (0x10 / 16 = 1 ∧ 0x10 % 16 = 0) ∧ (0x20 / 16 = 2 ∧ 0x2f / 16 = 2) ∧ (0x30 / 16 = 3 ∧ 0x30 % 16 = 0) ∧
    (0x40 / 16 = 4 ∧ 0x47 / 16 = 4 ∧ 0x40 % 16 < 8 ∧ 0x47 % 16 < 8) ∧ (0x48 / 16 = 4 ∧ ¬ 0x48 % 16 < 8) := by decide

/-- DecodeOfEncodeIsTheInstruction, DecodedInstructionHasExactlyItsWord, OpcodeRowsSelectTheirCommands. -/
theorem witness_wellFormed_and_decoded : WellFormed (.rdh 7) ∧ decode ⟨0x47, 1⟩ = .ok (.rdh 7) ∧
    (⟨"RDH", 0x40, 0xf8⟩ : OpcodeRow) ∈ opcodeRows ∧ OpcodeRow.selects ⟨"RDH", 0x40, 0xf8⟩ 0x47 = true := by decide

/-- StepRunsTheDecodedInstruction, EveryEventIsAnsweredInOneStep, ChecksAreMadeInOrder. -/
theorem witness_request_pending : (asked initialised 0x47).pending = .request ⟨0x47, 0⟩ :: [] ∧
    decode ⟨0x47, 0⟩ = .ok (.rdh 7) := by decide

/-- PlacedTableWordRunsNext. -/
theorem witness_placed_word : decodeTableWord 8 0x47 = some (.rdh 7) := by decide

/-- StepWithNothingPendingChangesNothing. -/
theorem witness_nothing_pending : initialised.pending = [] := by decide

/-- IllegalWordsRaiseIllegalCmd: the four kinds of illegal word, and a legal one. -/
theorem witness_illegal_words : (asked initialised 0x00).cause = 0#2 ∧ 0x0f / 16 = 0 ∧ 5 ≤ 0x50 / 16 ∧
    (0x11 / 16 = 1 ∧ 0x11 % 16 ≠ 0) ∧ (0x3f / 16 = 3 ∧ 0x3f % 16 ≠ 0) ∧ (0x48 / 16 = 4 ∧ 8 ≤ 0x48 % 16) ∧
    (0x47 / 16 = 4 ∧ ¬ 8 ≤ 0x47 % 16) := by decide

/-- The states of InitLoadsTheInitialState, WrwWritesOneBufferWord and RdhReservedIndexIsIllegal: ready and latched. -/
theorem witness_ready_and_latched : initialised.cause = 0#2 ∧ (latched 1).cause ≠ 0#2 ∧ 8 ≤ (8#4).toNat ∧
    (0#4).toNat < 16 ∧ (15#4).toNat < 16 := by decide

/-- The four clauses of CompressFoldsTheBufferedBlock. -/
theorem witness_compress_clauses : (latched 3).cause ≠ 0#2 ∧ (State.reset.cause = 0#2 ∧ State.reset.hv = false) ∧
    (lacksLast.cause = 0#2 ∧ lacksLast.hv = true ∧ lacksLast.wv ≠ 0xffff#16) ∧
    (loaded.cause = 0#2 ∧ loaded.hv = true ∧ loaded.wv = 0xffff#16) := by decide +kernel

/-- The three clauses of RdhAnswersTheStateWord. -/
theorem witness_rdh_clauses : (latched 2).cause ≠ 0#2 ∧
    (State.reset.cause = 0#2 ∧ (7#4).toNat < 8 ∧ State.reset.hv = false) ∧
    (initialised.cause = 0#2 ∧ (0#4).toNat < 8 ∧ (7#4).toNat < 8 ∧ initialised.h = some iv) := by decide

/-- CommandsLeaveTheRestUnchanged and RepeatingACommand: exec answers a next state on each command. -/
theorem witness_exec_answers : ∃ a b c d, exec .init loaded = .next a ∧ exec (.wrw 5 9) loaded = .next b ∧
    exec .compress loaded = .next c ∧ exec (.rdh 7) loaded = .next d ∧ d.response ≠ some (.err d.cause) :=
  ⟨_, _, _, _, rfl, rfl, rfl, rfl, by decide⟩

/-- What COMPRESS of the "abc" block leaves. -/
def folded : State := { initialised with h := some (compress iv abcBlock), response := some .ok }

theorem exec_compress_loaded : exec .compress loaded = .next folded := by
  simp only [exec, execCompress, unlessLatched_of_ready (s := loaded) rfl]
  rw [show presentBlock loaded.w = some abcBlock from presentBlock_map_some abcBlock]
  rfl

/-- RepeatingACommand: a COMPRESS that answers OK. -/
theorem witness_compress_answers_ok : ∃ t, exec .compress loaded = .next t ∧ t.response = some .ok :=
  ⟨folded, exec_compress_loaded, rfl⟩

/-- RepeatingACommand and BufferWritesCommute: two writes, to one index and to two, in both orders. -/
theorem witness_two_writes : (3#4) ≠ 4#4 ∧ ∃ t u t' u' v, exec (.wrw 3 1) loaded = .next t ∧ exec (.wrw 4 2) t = .next u ∧
    exec (.wrw 4 2) loaded = .next t' ∧ exec (.wrw 3 1) t' = .next u' ∧ exec (.wrw 3 2) t = .next v :=
  ⟨by decide, _, _, _, _, _, rfl, rfl, rfl, rfl, rfl⟩

/-- ErrorEntryWritesOnlyCause and LatchedErrorRefusesEveryRequest: a request answered with an error. -/
theorem witness_error_answer : ∃ t, (asked State.reset 0x30).pending = .request ⟨0x30, 0⟩ :: [] ∧
    step (asked State.reset 0x30) = .next t ∧ t.response = some (.err 2) ∧ (asked (latched 1) 0x30).cause ≠ 0#2 :=
  ⟨_, rfl, rfl, rfl, by decide⟩

/-- OnlyResetClearsALatchedCause and ResetEventGivesTheResetState. -/
theorem witness_cause_cleared : ∃ t, step { latched 1 with pending := [.reset] } = .next t ∧
    (latched 1).cause ≠ 0#2 ∧ t.cause ≠ (latched 1).cause := ⟨_, rfl, by decide, by decide⟩

/-- StepKeepsTheInvariant: the reset state with an INIT pending meets the invariant and steps. -/
theorem witness_invariant : Inv (asked State.reset 0x10) ∧ ∃ t, step (asked State.reset 0x10) = .next t :=
  ⟨⟨fun _ h => (nomatch h), fun _ h => (nomatch h), ⟨fun h => absurd h (by decide), fun h => absurd h (by decide)⟩,
    fun _ h => (nomatch h)⟩, _, rfl⟩

/-- OnlyInitCompressAndResetChangeH: H changes by a reset, an INIT and a COMPRESS. -/
theorem witness_h_changes :
    (∃ t, step { loaded with pending := [.reset] } = .next t ∧ t.h ≠ loaded.h) ∧
    (∃ t, step (asked State.reset 0x10) = .next t ∧ t.h ≠ State.reset.h) ∧
    (∃ t, step (asked loaded 0x30) = .next t ∧ t.h ≠ loaded.h) := by
  refine ⟨⟨_, rfl, by decide⟩, ⟨_, rfl, by decide⟩, ⟨folded, exec_compress_loaded, ?_⟩⟩
  decide +kernel

/-- NextStateDependsOnArchitecturalStateAlone and InitForgetsTheEarlierMessage. -/
theorem witness_two_states : SameArch (asked loaded 0x10) { asked loaded 0x10 with response := some .ok } ∧
    (asked loaded 0x10).pending ≠ [] ∧ loaded.cause = 0#2 ∧ initialised.cause = 0#2 ∧
    loaded.pending = initialised.pending := ⟨⟨rfl, rfl, rfl⟩, by decide, rfl, rfl, rfl⟩

/-- IgnoredDataOperandHasNoEffect: the three commands that take no data. -/
theorem witness_ignored_operand : (0x47#8).toNat / 16 ≠ 2 ∧ (0x10#8).toNat / 16 ≠ 2 ∧ (0x30#8).toNat / 16 ≠ 2 := by decide

/-- EnginesAreIndependent. -/
theorem witness_cluster : ∃ es, clusterStep [latched 1, asked State.reset 0x10] ⟨1, by decide⟩ = .next es := ⟨_, rfl⟩

/-- The amounts and bit numbers of the ALU statements, at both ends. -/
theorem witness_rotation_amounts : (0 < 1 ∧ 1 < 64) ∧ (0 < 63 ∧ 63 < 64) ∧ (0 < (1 + 61) % 64 ∧ (1 + 61) % 64 < 64) ∧
    0 < 64 ∧ 63 < 64 := by decide

/-- RoundFollowsTheFormulas: the named values of R163's example, round 0 of "abc". -/
theorem witness_round_formulas :
    bsig1 (loadWorking iv).e = 0x9427e33bb5c9dbca ∧
    ch (loadWorking iv).e (loadWorking iv).f (loadWorking iv).g = 0x1f85c98c7b273d3b ∧
    (0x5be0cd19137e2179#64 + 0x9427e33bb5c9dbca + 0x1f85c98c7b273d3b +
      kTable[0] + 0x6162638000000000 = 0xb37b0cfa1b97e8a0) ∧
    bsig0 (loadWorking iv).a = 0x08c4db56aac80c2a ∧
    maj (loadWorking iv).a (loadWorking iv).b (loadWorking iv).c = 0x3a6fe667f69ce92b ∧
    (0x08c4db56aac80c2a#64 + 0x3a6fe667f69ce92b = 0x4334c1bea164f555) := by decide +kernel

/-- ScheduleObeysTheExtensionRule: the first and last index of each clause. -/
theorem witness_schedule_indices : 0 < 16 ∧ 15 < 16 ∧ (16 ≤ 16 ∧ 16 < 80) ∧ (16 ≤ 79 ∧ 79 < 80) := by decide

/-- CommandSequenceComputesTheDigest, NoDigestAfterAnError and LastBlockEndsInTheBitLength: a message in the domain. -/
theorem witness_message : initialised.cause = 0#2 ∧ (latched 1).cause ≠ 0#2 ∧
    8 * ([0x61, 0x62, 0x63] : List Byte).length ≤ 2 ^ 64 - 1 := by decide

theorem exists_message_of_length (n : Nat) : ∃ m : List Byte, n ≤ m.length := ⟨List.replicate n 0, by simp⟩

/-- HostRefusesBeforeAnyCommand: text that is not encodable, and a message of 2^61 bytes. -/
theorem witness_refused_inputs : utf8 [0xd800] = none ∧ ∃ m : List Byte, 2 ^ 61 ≤ m.length := by
  refine ⟨by decide, ?_⟩
  exact exists_message_of_length _

/-- ZeroBytesReachResidue112 and PaddedSizeAndBlockCount: both branches, and the four residues. -/
theorem witness_residues : 111 % 128 < 112 ∧ 112 ≤ 112 % 128 ∧ 111 % 128 = 111 ∧ 112 % 128 = 112 ∧ 127 % 128 = 127 ∧
    128 % 128 = 0 := by decide

/-- BlockWordsAreBigEndian: the padded "abc" holds block 0 and no more. -/
theorem witness_block_in_buffer : 128 * 0 + 128 ≤ (pad [0x61, 0x62, 0x63]).length ∧ 15 < 16 := by decide +kernel

/-- DigestBytesAreBigEndianPerWord: the last byte of the last word. -/
theorem witness_digest_byte : 7 < 8 ∧ 8 * 7 + 7 = 63 := by decide +kernel

/-- IvIsTheSquareRootFraction, KIsTheCubeRootFraction, TablePrimesAreTheFirstEightyPrimes: first and last entries. -/
theorem witness_table_entries : tablePrimes[0] = 2 ∧ tablePrimes[7] = 19 ∧ tablePrimes[79] = 409 ∧
    ivRows.length = 8 ∧ 0 < 79 ∧ 2 ≤ 409 := by
  decide

end Sys2Proof.Tests
end

/-! The frames of the four commands (R31), read off the cases of `exec_cases`. -/

namespace Sys2Proof.Machine

/-- A command does not look at the host's stream. -/
theorem Ran.pending_eq {i : Instr} {s t : State} (hr : Ran i s t) : t.pending = s.pending := by
  cases hr with
  | initialised _ hs => rw [hs]
  | wrote _ _ _ hs => rw [hs]
  | compressed _ _ _ _ _ hs => rw [hs]
  | read _ _ _ _ _ hs => rw [hs]
  | noDigest _ _ hs => rw [hs, raise_pending]
  | noBlock _ _ _ _ hs => rw [hs, raise_pending]
  | badIndex _ _ _ hs => rw [hs, raise_pending]

theorem exec_pending {i : Instr} {s t : State} (h : exec i s = .next t) : t.pending = s.pending := by
  obtain ⟨-, rfl⟩ | ⟨-, hr⟩ := exec_cases h
  · exact refuse_pending s
  · exact hr.pending_eq

/-- With an error latched no command touches CAUSE, H or W (R225). -/
theorem exec_latched_frame {i : Instr} {s t : State} (h : exec i s = .next t) (hl : s.cause ≠ 0#2) :
    t.cause = s.cause ∧ t.h = s.h ∧ t.w = s.w := by
  rw [exec_of_latched hl] at h
  cases h
  exact ⟨rfl, rfl, rfl⟩

/-- INIT of a ready engine (R161). -/
theorem exec_init_of_ready {s : State} (h0 : s.cause = 0#2) :
    exec .init s = .next { s with h := some iv, w := emptyW, response := some .ok } := by
  simp only [exec, execInit, unlessLatched_of_ready h0, State.respond]

/-- WRW of a ready engine (R141). -/
theorem exec_wrw_of_ready {s : State} (h0 : s.cause = 0#2) (idx : BitVec 4) (v : Word) :
    exec (.wrw idx v) s = .next { s with w := writeW s.w idx v, response := some .ok } := by
  simp only [exec, execWrw, unlessLatched_of_ready h0, State.respond]

/-- COMPRESS of a ready engine folds the block, or enters an error (R167). -/
theorem Ran.of_compress {s t : State} (hr : Ran .compress s t) :
    (∃ h b, s.h = some h ∧ s.w = b.map some ∧
      t = { s with h := some (compress h b), w := emptyW, response := some .ok }) ∨
    ∃ c, t = s.raise c := by
  cases hr with
  | compressed h b _ hh hw hs => exact .inl ⟨h, b, hh, hw, hs⟩
  | noDigest _ _ hs => exact .inr ⟨_, hs⟩
  | noBlock _ _ _ _ hs => exact .inr ⟨_, hs⟩
  | initialised hi | wrote _ _ hi | read _ _ _ hi | badIndex _ hi => cases hi

/-- RDH of a ready engine answers a state word, or enters an error (R168). -/
theorem Ran.of_rdh {s t : State} {idx : BitVec 4} (hr : Ran (.rdh idx) s t) :
    (∃ h, ∃ hlt : indexOf idx < 8, s.h = some h ∧
      t = { s with response := some (.okData (readH h idx hlt)) }) ∨
    ∃ c, t = s.raise c := by
  cases hr with
  | read _ h hlt hi hh hs => cases hi; exact .inl ⟨h, hlt, hh, hs⟩
  | noDigest _ _ hs => exact .inr ⟨_, hs⟩
  | badIndex _ _ _ hs => exact .inr ⟨_, hs⟩
  | initialised hi | wrote _ _ hi | compressed _ _ hi | noBlock _ hi => cases hi

theorem exec_init_frame {s t : State} (h : exec .init s = .next t) : t.cause = s.cause := by
  by_cases h0 : s.cause = 0#2
  · rw [exec_init_of_ready h0] at h
    cases h
    rfl
  · exact (exec_latched_frame h h0).1

theorem exec_wrw_frame {s t : State} {idx : BitVec 4} {v : Word} (h : exec (.wrw idx v) s = .next t) :
    t.cause = s.cause ∧ t.h = s.h ∧ ∀ j (hj : j < 16), j ≠ idx.toNat → t.w[j] = s.w[j] := by
  by_cases h0 : s.cause = 0#2
  · rw [exec_wrw_of_ready h0] at h
    cases h
    refine ⟨rfl, rfl, fun j hj hne => ?_⟩
    rw [writeW_getElem, if_neg hne.symm]
  · obtain ⟨hc, hh, hw⟩ := exec_latched_frame h h0
    exact ⟨hc, hh, fun j hj _ => by rw [hw]⟩

theorem exec_compress_frame {s t : State} (h : exec .compress s = .next t) :
    (s.cause ≠ 0#2 → t.cause = s.cause) ∧ (t.response = some .ok → t.cause = s.cause) ∧
      (t.response ≠ some .ok → t.h = s.h ∧ t.w = s.w) := by
  refine ⟨fun hl => (exec_latched_frame h hl).1, ?_⟩
  obtain ⟨-, rfl⟩ | ⟨-, hr⟩ := exec_cases h
  · simp
  · obtain ⟨_, _, -, -, rfl⟩ | ⟨c, rfl⟩ := hr.of_compress
    · simp
    · simp

theorem exec_rdh_frame {s t : State} {idx : BitVec 4} (h : exec (.rdh idx) s = .next t) :
    (s.cause ≠ 0#2 → t.cause = s.cause) ∧
      (∀ v, t.response = some (.okData v) → t.cause = s.cause) ∧ t.h = s.h ∧ t.w = s.w := by
  refine ⟨fun hl => (exec_latched_frame h hl).1, ?_⟩
  obtain ⟨-, rfl⟩ | ⟨-, hr⟩ := exec_cases h
  · simp
  · obtain ⟨_, _, -, rfl⟩ | ⟨c, rfl⟩ := hr.of_rdh
    · simp
    · simp

/-- Settles O16, from the frame of each command. -/
theorem commandsLeaveTheRestUnchanged : Obligations.CommandsLeaveTheRestUnchanged := by
  intro i s t h
  refine ⟨exec_pending h, ?_, ?_, ?_, ?_⟩
  · rintro rfl; exact exec_init_frame h
  · rintro idx v rfl; exact exec_wrw_frame h
  · rintro rfl; exact exec_compress_frame h
  · rintro idx rfl; exact exec_rdh_frame h

/-- Settles O30: INIT of a ready engine keeps CAUSE = 0 and the queue, and fixes every other field. -/
theorem initForgetsTheEarlierMessage : Obligations.InitForgetsTheEarlierMessage := by
  intro s t hs ht hp
  rw [exec_init_of_ready hs, exec_init_of_ready ht, hs, ht, hp]

end Sys2Proof.Machine

/-! The reset state and the latched cause (R45, R25, R227). -/

namespace Sys2Proof.Machine

/-- Settles O23. -/
theorem resetStateIsEmpty : Obligations.ResetStateIsEmpty :=
  ⟨rfl, rfl, wv_of_empty rfl, rfl, emptyW_getElem⟩

/-- Settles O22: of the things a step can do, only the reset leaves a latched CAUSE changed. -/
theorem onlyResetClearsALatchedCause : Obligations.OnlyResetClearsALatchedCause := by
  intro s t h hl hne
  obtain ⟨-, hwait⟩ | hreset | ⟨_, _, -, -, hrefuse⟩ | ⟨_, _, _, -, h0, -⟩ | ⟨_, _, _, -, h0, -⟩ := step_cases h
  · exact absurd (congrArg State.cause hwait) hne
  · exact hreset
  · exact absurd (congrArg State.cause hrefuse) hne
  · exact absurd h0 hl
  · exact absurd h0 hl

end Sys2Proof.Machine

/-! The invariant (`Inv`): one lemma per way a step can end, then the step. -/

namespace Sys2Proof.Machine

/-- The invariant does not look at the host's stream. -/
theorem inv_with_pending {s : State} (hi : Inv s) (rest : List HostEvent) : Inv { s with pending := rest } :=
  ⟨hi.digestChained, hi.statusAgrees, hi.causeExplained, hi.dataGenuine⟩

theorem causeExplained_of_ready {s : State} (h0 : s.cause = 0#2) : CauseExplained s := by
  constructor <;> (intro h; rw [h0] at h; exact absurd h (by decide))

/-- A state that answers `ERR(CAUSE)` owes only its digest state and the reason of its cause. -/
theorem inv_of_err {s : State} (hr : s.response = some (.err s.cause)) (hd : DigestChained s)
    (hc : CauseExplained s) : Inv s where
  digestChained := hd
  statusAgrees r h := by
    rw [hr] at h
    cases h
    rfl
  causeExplained := hc
  dataGenuine v h := by
    rw [hr] at h
    cases h

/-- A ready state that answers `OK` owes only its digest state. -/
theorem inv_of_ok {s : State} (h0 : s.cause = 0#2) (hr : s.response = some .ok) (hd : DigestChained s) : Inv s where
  digestChained := hd
  statusAgrees r h := by
    rw [hr] at h
    cases h
    exact h0.symm
  causeExplained := causeExplained_of_ready h0
  dataGenuine v h := by
    rw [hr] at h
    cases h

theorem inv_refuse {s : State} (hi : Inv s) : Inv s.refuse :=
  inv_of_err rfl hi.digestChained hi.causeExplained

theorem code_eq_two_iff (c : ErrorCause) : c.code = 2#2 ↔ c = .hUninit := by
  cases c <;> decide

theorem code_eq_three_iff (c : ErrorCause) : c.code = 3#2 ↔ c = .blockIncomplete := by
  cases c <;> decide

/-- Error entry in a ready state keeps the invariant when the reason of the cause is there (R223, R224). -/
theorem inv_raise {s : State} {c : ErrorCause} (hi : Inv s) (h0 : s.cause = 0#2)
    (hH : c = .hUninit → s.h = none) (hB : c = .blockIncomplete → s.hv = true ∧ s.wv ≠ 0xffff#16) :
    Inv (s.raise c) := by
  refine inv_of_err (raise_response s c) ?_ ?_
  · intro h hh
    exact hi.digestChained h (by rwa [raise_h] at hh)
  · rw [raise_of_ready h0]
    exact ⟨fun h => congrArg Option.isSome (hH ((code_eq_two_iff c).mp h)), fun h => hB ((code_eq_three_iff c).mp h)⟩

theorem readH_mem (h : HWords) (idx : BitVec 4) (hlt : indexOf idx < 8) : readH h idx hlt ∈ h :=
  Vector.getElem_mem hlt

/-- A command of a ready engine keeps the invariant. -/
theorem inv_ran {i : Instr} {s t : State} (hi : Inv s) (h0 : s.cause = 0#2) (hr : Ran i s t) : Inv t := by
  cases hr with
  | initialised _ hs =>
    subst hs
    refine inv_of_ok h0 rfl ?_
    rintro _ ⟨⟩
    exact .ofInit
  | wrote _ _ _ hs =>
    subst hs
    exact inv_of_ok h0 rfl hi.digestChained
  | compressed h b _ hh _ hs =>
    subst hs
    refine inv_of_ok h0 rfl ?_
    rintro _ ⟨⟩
    exact .ofCompress h b (hi.digestChained h hh)
  | read idx h hlt _ hh hs =>
    subst hs
    refine ⟨hi.digestChained, ?_, causeExplained_of_ready h0, ?_⟩
    · rintro _ ⟨⟩
      exact h0.symm
    · rintro _ ⟨⟩
      exact ⟨h, hh, readH_mem h idx hlt⟩
  | noDigest _ hh hs =>
    subst hs
    exact inv_raise hi h0 (fun _ => hh) nofun
  | noBlock h _ hh hw hs =>
    subst hs
    refine inv_raise hi h0 nofun fun _ => ⟨congrArg Option.isSome hh, fun hfull => ?_⟩
    obtain ⟨b, hb⟩ := (wv_eq_full_iff s).mp hfull
    cases hw.symm.trans hb
  | badIndex _ _ _ hs =>
    subst hs
    exact inv_raise hi h0 nofun nofun

/-- Settles O25: nothing is latched, answered or held. -/
theorem invariantHoldsAtReset : Obligations.InvariantHoldsAtReset :=
  ⟨nofun, nofun, causeExplained_of_ready rfl, nofun⟩

/-- Settles O26, over the cases of `step_cases`. -/
theorem stepKeepsTheInvariant : Obligations.StepKeepsTheInvariant := by
  intro s t hi h
  obtain ⟨-, rfl⟩ | ⟨rest, -, rfl⟩ | ⟨_, rest, -, -, rfl⟩ | ⟨_, rest, _, -, h0, -, hr⟩ | ⟨_, rest, _, -, h0, -, rfl⟩ :=
    step_cases h
  · exact hi
  · exact inv_with_pending invariantHoldsAtReset rest
  · exact inv_refuse (inv_with_pending hi rest)
  · exact inv_ran (inv_with_pending hi rest) h0 hr
  · exact inv_raise (inv_with_pending hi rest) h0 nofun nofun

end Sys2Proof.Machine

/-! The tables (R41, R42). The prime column is compared with a filter of the numbers up to 409; a table word is checked
by putting an integer part in front of it and comparing the power with the prime, scaled. -/

namespace Sys2Proof.Machine

theorem tablePrimes_toList : tablePrimes.toList = (List.range 410).filter (fun n => n.Prime) := by
  decide +kernel

theorem mem_tablePrimes (n : Nat) : n ∈ tablePrimes.toList ↔ n ≤ 409 ∧ n.Prime := by
  rw [tablePrimes_toList, List.mem_filter, List.mem_range, decide_eq_true_iff, Nat.lt_succ_iff]

theorem tablePrimes_pairwise_lt : tablePrimes.toList.Pairwise (· < ·) := by
  rw [tablePrimes_toList]
  exact List.pairwise_lt_range.filter _

/-- Settles O41: the column is the rising list of all primes up to 409. -/
theorem tablePrimesAreTheFirstEightyPrimes : Obligations.TablePrimesAreTheFirstEightyPrimes := by
  refine ⟨fun i hi => ?_, fun i j hj hij => ?_, fun n hn hle => (mem_tablePrimes n).mpr ⟨hle, hn⟩⟩
  · have hmem : tablePrimes[i] ∈ tablePrimes.toList := by simp
    exact ((mem_tablePrimes _).mp hmem).2
  · have hlt := List.pairwise_iff_getElem.mp tablePrimes_pairwise_lt i j (by simp; omega) (by simp; omega) hij
    simpa using hlt

/-- The number with integer part `q` and fraction `w`, in units of 2^-64. -/
def fixedPoint (q : Nat) (w : Word) : Nat := q * 2 ^ 64 + w.toNat

theorem fixedPoint_mod (q : Nat) (w : Word) : fixedPoint q w % 2 ^ 64 = w.toNat := by
  have := w.isLt
  unfold fixedPoint
  omega

/-- `q` and `w` are the integer part and the first 64 fraction bits of the k-th root of `p`. -/
abbrev IsRoot (k p q : Nat) (w : Word) : Prop :=
  fixedPoint q w ^ k ≤ p * 2 ^ (64 * k) ∧ p * 2 ^ (64 * k) < (fixedPoint q w + 1) ^ k

theorem iv_isRoot : ∀ i (hi : i < 8), ∃ q < 8, IsRoot 2 tablePrimes[i] q iv[i] := by
  decide +kernel

theorem kTable_isRoot : ∀ i (hi : i < 80), ∃ q < 8, IsRoot 3 tablePrimes[i] q kTable[i] := by
  decide +kernel

/-- Settles O39. -/
theorem ivIsTheSquareRootFraction : Obligations.IvIsTheSquareRootFraction := by
  refine ⟨by decide, fun i hi => ?_⟩
  obtain ⟨q, -, hle, hlt⟩ := iv_isRoot i hi
  exact ⟨fixedPoint q iv[i], hle, hlt, (fixedPoint_mod q _).symm⟩

/-- Settles O40. -/
theorem kIsTheCubeRootFraction : Obligations.KIsTheCubeRootFraction := by
  intro i hi
  obtain ⟨q, -, hle, hlt⟩ := kTable_isRoot i hi
  exact ⟨fixedPoint q kTable[i], hle, hlt, (fixedPoint_mod q _).symm⟩

end Sys2Proof.Machine

/-! What a command repeated does (R58): each clause is the command's own equation used twice, or the refusal used twice. -/

namespace Sys2Proof.Machine

@[simp] theorem refuse_refuse (s : State) : s.refuse.refuse = s.refuse := rfl

/-- A refused command, repeated, is refused with the same response (R225). -/
theorem exec_refuse_of_latched {s : State} (hl : s.cause ≠ 0#2) (i : Instr) : exec i s.refuse = .next s.refuse := by
  rw [exec_of_latched (s := s.refuse) hl, refuse_refuse]

/-- The last write to a buffer word wins (R141). -/
theorem writeW_writeW_same (w : Vector (Option Word) 16) (idx : BitVec 4) (a b : Word) :
    writeW (writeW w idx a) idx b = writeW w idx b :=
  Vector.set_set ..

theorem presentBlock_emptyW : presentBlock emptyW = none :=
  (presentBlock_eq_none_iff _).mpr ⟨0, rfl⟩

/-- RDH of a ready engine that holds a digest (R168). -/
theorem exec_rdh_of_ready {s : State} {h : HWords} {idx : BitVec 4} (h0 : s.cause = 0#2) (hh : s.h = some h)
    (hlt : indexOf idx < 8) : exec (.rdh idx) s = .next { s with response := some (.okData (readH h idx hlt)) } := by
  simp only [exec, execRdh, unlessLatched_of_ready h0, dif_pos hlt, hh, State.respond]

/-- RDH of a ready engine at an index that selects no state word (R51, R87). -/
theorem exec_rdh_of_reserved {s : State} {idx : BitVec 4} (h0 : s.cause = 0#2) (hge : ¬ indexOf idx < 8) :
    exec (.rdh idx) s = .next (s.raise .illegalCmd) := by
  simp only [exec, execRdh, unlessLatched_of_ready h0, dif_neg hge]

/-- COMPRESS of a ready engine with a digest and a block word missing (R167 case (a)). -/
theorem exec_compress_of_noBlock {s : State} {h : HWords} (h0 : s.cause = 0#2) (hh : s.h = some h)
    (hw : presentBlock s.w = none) : exec .compress s = .next (s.raise .blockIncomplete) := by
  simp only [exec, execCompress, unlessLatched_of_ready h0, hh, hw]

theorem exec_init_idempotent {s t : State} (h : exec .init s = .next t) : exec .init t = .next t := by
  by_cases h0 : s.cause = 0#2
  · rw [exec_init_of_ready h0] at h
    cases h
    exact exec_init_of_ready h0
  · rw [exec_of_latched h0] at h
    cases h
    exact exec_refuse_of_latched h0 .init

theorem exec_wrw_last_wins {s t u : State} {idx : BitVec 4} {a b : Word} (ht : exec (.wrw idx a) s = .next t)
    (hu : exec (.wrw idx b) t = .next u) : exec (.wrw idx b) s = .next u := by
  rw [← hu]
  by_cases h0 : s.cause = 0#2
  · rw [exec_wrw_of_ready h0] at ht
    cases ht
    rw [exec_wrw_of_ready h0, exec_wrw_of_ready (by exact h0), writeW_writeW_same]
  · rw [exec_of_latched h0] at ht
    cases ht
    rw [exec_of_latched h0, exec_refuse_of_latched h0]

/-- An RDH that answers no error has read a state word of a ready engine and written nothing else (R168). -/
theorem exec_rdh_answered {s t : State} {idx : BitVec 4} (h : exec (.rdh idx) s = .next t)
    (hne : t.response ≠ some (.err t.cause)) :
    s.cause = 0#2 ∧ ∃ h, ∃ hlt : indexOf idx < 8, s.h = some h ∧
      t = { s with response := some (.okData (readH h idx hlt)) } := by
  obtain ⟨-, rfl⟩ | ⟨h0, hr⟩ := exec_cases h
  · exact absurd (refuse_response s) hne
  · obtain hread | ⟨c, rfl⟩ := hr.of_rdh
    · exact ⟨h0, hread⟩
    · exact absurd (raise_response s c) hne

theorem exec_rdh_repeats {s t : State} {idx : BitVec 4} (h : exec (.rdh idx) s = .next t)
    (hne : t.response ≠ some (.err t.cause)) :
    t.h = s.h ∧ t.w = s.w ∧ t.cause = s.cause ∧ exec (.rdh idx) t = .next t := by
  obtain ⟨h0, _, hlt, hh, rfl⟩ := exec_rdh_answered h hne
  exact ⟨rfl, rfl, rfl, exec_rdh_of_ready (by exact h0) (by exact hh) hlt⟩

/-- A COMPRESS that answers `OK` leaves a ready engine with a digest and an empty buffer (R167). -/
theorem exec_compress_answered_ok {s t : State} (h : exec .compress s = .next t) (hok : t.response = some .ok) :
    t.cause = 0#2 ∧ (∃ h, t.h = some h) ∧ t.w = emptyW := by
  obtain ⟨-, rfl⟩ | ⟨h0, hr⟩ := exec_cases h
  · cases hok
  · obtain ⟨_, _, -, -, rfl⟩ | ⟨c, rfl⟩ := hr.of_compress
    · exact ⟨h0, ⟨_, rfl⟩, rfl⟩
    · cases hok

theorem exec_compress_after_ok {s t : State} (h : exec .compress s = .next t) (hok : t.response = some .ok) :
    exec .compress t = .next { t with cause := 3#2, response := some (.err 3#2) } := by
  obtain ⟨h0, ⟨_, hh⟩, hw⟩ := exec_compress_answered_ok h hok
  rw [exec_compress_of_noBlock h0 hh (hw ▸ presentBlock_emptyW), raise_of_ready h0]
  rfl

/-- Settles O17, one lemma per command. -/
theorem repeatingACommand : Obligations.RepeatingACommand :=
  ⟨fun _ _ => exec_init_idempotent, fun _ _ _ _ _ _ => exec_wrw_last_wins, fun _ _ _ => exec_rdh_repeats,
    fun _ _ => exec_compress_after_ok⟩

/-- Settles O15: the index check comes before the look at H, and error entry does the rest. -/
theorem rdhReservedIndexIsIllegal : Obligations.RdhReservedIndexIsIllegal := by
  intro s idx h0 hge
  rw [exec_rdh_of_reserved h0 (by rw [indexOf_eq]; omega), raise_of_ready h0]
  rfl

end Sys2Proof.Machine

/-! One step of one engine (R57, R59), alone and among others (R65). -/

namespace Sys2Proof.Machine

/-- A step takes the oldest event and carries it out (R57, R59). -/
theorem step_of_pending_cons {s : State} {ev : HostEvent} {rest : List HostEvent} (hp : s.pending = ev :: rest) :
    step s = runEvent ev { s with pending := rest } := by
  simp only [step, hp]

/-- A transaction with a legal word executes its command (R80). -/
theorem transact_of_decode_ok {r : Request} {i : Instr} (hd : decode r = .ok i) (s : State) :
    transact r s = exec i s := by
  simp only [transact, hd]

/-- Settles O6. -/
theorem stepRunsTheDecodedInstruction : Obligations.StepRunsTheDecodedInstruction := by
  intro s r rest i hp hd
  rw [step_of_pending_cons hp, runEvent, transact_of_decode_ok hd]

/-- A step of the cluster puts the next state of engine k in place k (R65). -/
theorem clusterStep_eq_next {es es' : Cluster} {k : Fin es.length} (h : clusterStep es k = .next es') :
    ∃ s, step (es.get k) = .next s ∧ es' = es.set k.val s := by
  obtain ⟨s, hs⟩ := step_next (es.get k)
  simp only [clusterStep, hs, Host.Outcome.next.injEq] at h
  exact ⟨s, hs, h.symm⟩

/-- Settles O31: a write of one list entry keeps the length and every other entry. -/
theorem enginesAreIndependent : Obligations.EnginesAreIndependent := by
  intro es es' k h
  obtain ⟨s, hs, rfl⟩ := clusterStep_eq_next h
  exact ⟨List.length_set, fun j hj => List.getElem?_set_ne hj.symm, s, hs, List.getElem?_set_self k.isLt⟩

end Sys2Proof.Machine


/-! The decoder (R81 to R88) and the encoder (R83): an equation per answer of R88, and the one equivalence that says
which instruction a request is. -/

namespace Sys2Proof

/-- `op` compared as a number (R81). -/
theorem opField_eq_iff (cmd : BitVec 8) (op : BitVec 4) : opField cmd = op ↔ cmd.toNat / 16 = op.toNat := by
  rw [← BitVec.toNat_inj, opField_toNat]

/-- `idx` compared as a number (R81). -/
theorem idxField_eq_iff (cmd : BitVec 8) (idx : BitVec 4) : idxField cmd = idx ↔ cmd.toNat % 16 = idx.toNat := by
  rw [← BitVec.toNat_inj, idxField_toNat]

theorem idxField_eq_ofNat (cmd : BitVec 8) : idxField cmd = BitVec.ofNat 4 (cmd.toNat % 16) := by
  rw [idxField_eq_iff, BitVec.toNat_ofNat, Nat.mod_mod]

/-- A word with known fields is that pair of fields (R81). -/
theorem append_eq_of_fields {cmd : BitVec 8} {op idx : BitVec 4} (hop : opField cmd = op) (hidx : idxField cmd = idx) :
    op ++ idx = cmd := by
  rw [← hop, ← hidx, append_fields]

section Answers

variable {r : Request}

theorem decode_of_init (hop : opField r.cmd = 1#4) (hidx : idxField r.cmd = 0#4) : decode r = .ok .init := by
  simp [decode, hop, hidx]

theorem decode_of_wrw (hop : opField r.cmd = 2#4) : decode r = .ok (.wrw (idxField r.cmd) r.wdata) := by
  simp [decode, hop]

theorem decode_of_compress (hop : opField r.cmd = 3#4) (hidx : idxField r.cmd = 0#4) : decode r = .ok .compress := by
  simp [decode, hop, hidx]

theorem decode_of_rdh (hop : opField r.cmd = 4#4) (hidx : (idxField r.cmd).toNat < 8) :
    decode r = .ok (.rdh (idxField r.cmd)) := by
  simp [decode, hop, hidx]

theorem decode_of_illegal (hinit : ¬ (opField r.cmd = 1#4 ∧ idxField r.cmd = 0#4)) (hwrw : opField r.cmd ≠ 2#4)
    (hcompress : ¬ (opField r.cmd = 3#4 ∧ idxField r.cmd = 0#4))
    (hrdh : ¬ (opField r.cmd = 4#4 ∧ (idxField r.cmd).toNat < 8)) : ∃ e, decode r = .error e := by
  obtain ⟨hop, hidx, -⟩ | ⟨hop, -⟩ | ⟨hop, hidx, -⟩ | ⟨hop, hidx, -⟩ | ⟨-, -, -, -, herr⟩ := decode_cases r
  · exact absurd ⟨hop, hidx⟩ hinit
  · exact absurd hop hwrw
  · exact absurd ⟨hop, hidx⟩ hcompress
  · exact absurd ⟨hop, hidx⟩ hrdh
  · exact herr

end Answers

/-- A request is the instruction `i` exactly when `i` is well formed, the command word is the one of `i`, and a WRW has
the request's data operand (R82 to R84, D4). -/
theorem decode_eq_ok_iff {r : Request} {i : Instr} :
    decode r = .ok i ↔ WellFormed i ∧ (encode i).cmd = r.cmd ∧ ∀ idx v, i = .wrw idx v → v = r.wdata := by
  constructor
  · intro h
    obtain ⟨hop, hidx, hd⟩ | ⟨hop, hd⟩ | ⟨hop, hidx, hd⟩ | ⟨hop, hidx, hd⟩ | ⟨-, -, -, -, e, hd⟩ := decode_cases r <;>
      cases hd.symm.trans h
    · exact ⟨rfl, append_eq_of_fields hop hidx, nofun⟩
    · exact ⟨rfl, append_eq_of_fields hop rfl, fun _ _ hi => by cases hi; rfl⟩
    · exact ⟨rfl, append_eq_of_fields hop hidx, nofun⟩
    · exact ⟨decide_eq_true hidx, append_eq_of_fields hop rfl, nofun⟩
  · rintro ⟨hwf, hcmd, hdata⟩
    cases i with
    | init => exact decode_of_init (hcmd ▸ opField_append ..) (hcmd ▸ idxField_append ..)
    | wrw idx v =>
      have hidx : idxField r.cmd = idx := hcmd ▸ idxField_append ..
      rw [decode_of_wrw (hcmd ▸ opField_append ..), hidx, ← hdata idx v rfl]
    | compress => exact decode_of_compress (hcmd ▸ opField_append ..) (hcmd ▸ idxField_append ..)
    | rdh idx =>
      have hidx : idxField r.cmd = idx := hcmd ▸ idxField_append ..
      rw [decode_of_rdh (hcmd ▸ opField_append ..) (hidx ▸ of_decide_eq_true hwf), hidx]

/-- Settles O4: the request of an instruction meets `decode_eq_ok_iff` by construction. -/
theorem decodeOfEncodeIsTheInstruction : Obligations.DecodeOfEncodeIsTheInstruction := fun i hwf =>
  decode_eq_ok_iff.mpr ⟨hwf, rfl, by rintro idx v rfl; rfl⟩

/-- Settles O5. -/
theorem decodedInstructionHasExactlyItsWord : Obligations.DecodedInstructionHasExactlyItsWord :=
  fun _ _ => decode_eq_ok_iff.mp

/-- Settles O2: the equation of each answer, its fields read as numbers. -/
theorem decoderIsTheTotalFunctionOfTheFields : Obligations.DecoderIsTheTotalFunctionOfTheFields := by
  rintro r _ _ rfl rfl
  refine ⟨?_, ?_, ?_, ?_, ?_⟩
  · rintro ⟨hop, hidx⟩
    exact decode_of_init ((opField_eq_iff ..).mpr hop) ((idxField_eq_iff ..).mpr hidx)
  · intro hop
    rw [← idxField_eq_ofNat]
    exact decode_of_wrw ((opField_eq_iff ..).mpr hop)
  · rintro ⟨hop, hidx⟩
    exact decode_of_compress ((opField_eq_iff ..).mpr hop) ((idxField_eq_iff ..).mpr hidx)
  · rintro ⟨hop, hidx⟩
    rw [← idxField_eq_ofNat]
    exact decode_of_rdh ((opField_eq_iff ..).mpr hop) (by rwa [idxField_toNat])
  · rintro ⟨hinit, hwrw, hcompress, hrdh⟩
    apply decode_of_illegal
    · rwa [opField_eq_iff, idxField_eq_iff]
    · rwa [Ne, opField_eq_iff]
    · rwa [opField_eq_iff, idxField_eq_iff]
    · rwa [opField_eq_iff, idxField_toNat]

/-- Settles O1: a legal word is the command word of its instruction; an illegal one is evaluated (R88). -/
theorem wordsOfTheOperationMapDecode : Obligations.WordsOfTheOperationMapDecode := by
  intro d
  have hwrw (cmd : BitVec 8) (idx : BitVec 4) (hcmd : (encode (.wrw idx d)).cmd = cmd) :
      decode ⟨cmd, d⟩ = .ok (.wrw idx d) :=
    decode_eq_ok_iff.mpr ⟨rfl, hcmd, by rintro _ _ ⟨⟩; rfl⟩
  refine ⟨decode_eq_ok_iff.mpr ⟨rfl, rfl, nofun⟩, hwrw _ _ rfl, hwrw _ _ rfl, hwrw _ _ rfl,
    decode_eq_ok_iff.mpr ⟨rfl, rfl, nofun⟩, decode_eq_ok_iff.mpr ⟨rfl, rfl, nofun⟩,
    decode_eq_ok_iff.mpr ⟨rfl, rfl, nofun⟩, ?_⟩
  simp [decode, opField, idxField]

/-! The match and mask rows of R83 -/

theorem selects_init_iff (cmd : BitVec 8) :
    OpcodeRow.selects ⟨"INIT", 0x10, 0xff⟩ cmd = true ↔ opField cmd = 1#4 ∧ idxField cmd = 0#4 := by
  revert cmd; decide

theorem selects_wrw_iff (cmd : BitVec 8) :
    OpcodeRow.selects ⟨"WRW", 0x20, 0xf0⟩ cmd = true ↔ opField cmd = 2#4 := by
  revert cmd; decide

theorem selects_compress_iff (cmd : BitVec 8) :
    OpcodeRow.selects ⟨"COMPRESS", 0x30, 0xff⟩ cmd = true ↔ opField cmd = 3#4 ∧ idxField cmd = 0#4 := by
  revert cmd; decide

theorem selects_rdh_iff (cmd : BitVec 8) :
    OpcodeRow.selects ⟨"RDH", 0x40, 0xf8⟩ cmd = true ↔ opField cmd = 4#4 ∧ (idxField cmd).toNat < 8 := by
  revert cmd; decide

/-- No two rows share a mnemonic. -/
theorem row_eq_of_mnemonic_eq : ∀ row ∈ opcodeRows, ∀ row' ∈ opcodeRows, row.mnemonic = row'.mnemonic → row = row' := by
  decide

/-- A word that a row selects decodes to an instruction of that row. -/
theorem exists_decode_of_selects {r : Request} {row : OpcodeRow} (hrow : row ∈ opcodeRows)
    (hsel : row.selects r.cmd = true) : ∃ i, decode r = .ok i ∧ mnemonic i = row.mnemonic := by
  simp only [opcodeRows, List.mem_cons, List.not_mem_nil, or_false] at hrow
  obtain rfl | rfl | rfl | rfl := hrow
  · obtain ⟨hop, hidx⟩ := (selects_init_iff _).mp hsel
    exact ⟨_, decode_of_init hop hidx, rfl⟩
  · exact ⟨_, decode_of_wrw ((selects_wrw_iff _).mp hsel), rfl⟩
  · obtain ⟨hop, hidx⟩ := (selects_compress_iff _).mp hsel
    exact ⟨_, decode_of_compress hop hidx, rfl⟩
  · obtain ⟨hop, hidx⟩ := (selects_rdh_iff _).mp hsel
    exact ⟨_, decode_of_rdh hop hidx, rfl⟩

/-- The command word of a well-formed instruction is selected by the row of its mnemonic (R83). -/
theorem exists_row_selects_encode (i : Instr) : Laws.OpcodeMatch.Statement i := by
  cases i with
  | init => exact Laws.OpcodeMatch.init
  | wrw idx v => exact Laws.OpcodeMatch.wrw idx v
  | compress => exact Laws.OpcodeMatch.compress
  | rdh idx => exact Laws.OpcodeMatch.rdh idx

/-- The row of a decoded instruction's mnemonic selects its word. -/
theorem selects_of_decode {r : Request} {row : OpcodeRow} {i : Instr} (hrow : row ∈ opcodeRows)
    (hd : decode r = .ok i) (hm : mnemonic i = row.mnemonic) : row.selects r.cmd = true := by
  obtain ⟨hwf, hcmd, -⟩ := decode_eq_ok_iff.mp hd
  obtain ⟨row', hrow', hm', hsel⟩ := exists_row_selects_encode i hwf
  rwa [row_eq_of_mnemonic_eq row' hrow' row hrow (hm'.trans hm), hcmd] at hsel

/-- Settles O3: a word decodes to one instruction, which has one mnemonic, which has one row. -/
theorem opcodeRowsSelectTheirCommands : Obligations.OpcodeRowsSelectTheirCommands := by
  refine ⟨fun r row hrow => ⟨exists_decode_of_selects hrow, fun ⟨_, hd, hm⟩ => selects_of_decode hrow hd hm⟩, ?_⟩
  intro cmd row row' hrow hrow' hsel hsel'
  obtain ⟨i, hd, hm⟩ := exists_decode_of_selects (r := ⟨cmd, 0⟩) hrow hsel
  obtain ⟨i', hd', hm'⟩ := exists_decode_of_selects (r := ⟨cmd, 0⟩) hrow' hsel'
  cases hd.symm.trans hd'
  exact row_eq_of_mnemonic_eq row hrow row' hrow' (hm.symm.trans hm')

end Sys2Proof

/-! A request as a step sees it: the data operand it ignores (R82, U5) and the table word placed next (R81). -/

namespace Sys2Proof.Machine

/-- Without WRW's operation code the decoder does not look at the data operand (R82). -/
theorem decode_ignores_wdata {cmd : BitVec 8} (hop : opField cmd ≠ 2#4) (d d' : Word) :
    decode ⟨cmd, d⟩ = decode ⟨cmd, d'⟩ := by
  simp only [decode, if_neg hop]

/-- A transaction depends on its request through the decoder alone (R80). -/
theorem transact_congr {r r' : Request} (hd : decode r = decode r') (s : State) : transact r s = transact r' s := by
  simp only [transact, hd]

/-- Settles O29. -/
theorem ignoredDataOperandHasNoEffect : Obligations.IgnoredDataOperandHasNoEffect := by
  intro s cmd d d' rest hop
  have hd : decode ⟨cmd, d⟩ = decode ⟨cmd, d'⟩ :=
    decode_ignores_wdata (mt (opField_eq_iff cmd 2#4).mp hop) d d'
  rw [step_of_pending_cons rfl, step_of_pending_cons rfl]
  exact transact_congr hd { s with pending := rest }

theorem decode_of_decodeTableWord {nbits w : Nat} {i : Instr} (h : decodeTableWord nbits w = some i) :
    decode (requestOfTableWord nbits w) = .ok i := by
  unfold decodeTableWord at h
  split at h
  · rename_i hd
    cases h
    exact hd
  · cases h

/-- Settles O7: taking the placed event leaves the state as it was. -/
theorem placedTableWordRunsNext : Obligations.PlacedTableWordRunsNext := by
  intro s nbits w i h
  rw [step_of_pending_cons (s := s.withFetchWord nbits w) rfl]
  exact transact_of_decode_ok (decode_of_decodeTableWord h) s

end Sys2Proof.Machine

/-! LDBLK (R94): the host's issue of one command, then sixteen buffer writes as a fold over their indices. -/

namespace Sys2Proof.Machine

/-- What the host gets for a well-formed command: the state and response of its meaning (R80). -/
theorem issue_of_exec {i : Instr} {s t : State} (hwf : WellFormed i) (h : exec i { s with pending := [] } = .next t) :
    issue i s = (t, t.response) := by
  have hstep : step { s with pending := [.request (encode i)] } = .next t := by
    rw [step_of_pending_cons rfl, runEvent, transact_of_decode_ok (decodeOfEncodeIsTheInstruction i hwf), h]
  simp only [issue, hstep]

/-- The engine `s` after an OK command of the host that has left `w` in the buffer. -/
def State.okWithBuffer (s : State) (w : Vector (Option Word) 16) : State :=
  { s with w := w, response := some .ok, pending := [] }

/-- The WRW that puts word `i` of a block in its place. -/
def wrwOf (b : Block) (i : Fin 16) : Instr := .wrw (BitVec.ofNat 4 i.val) b[i]

/-- A write of the block to a ready engine, issued by the host (R141). -/
theorem issue_wrwOf_of_ready {s : State} (h0 : s.cause = 0#2) (b : Block) (i : Fin 16) :
    issue (wrwOf b i) s = (s.okWithBuffer (writeW s.w (BitVec.ofNat 4 i.val) b[i]), some .ok) :=
  issue_of_exec rfl (exec_wrw_of_ready (s := { s with pending := [] }) h0 _ _)

theorem loadBlock_eq_map (b : Block) : loadBlock b = (List.finRange 16).map (wrwOf b) := rfl

/-- The buffer after the writes of the words of `b` at the indices `l`, in order. -/
def writeWords (b : Block) (w : Vector (Option Word) 16) (l : List (Fin 16)) : Vector (Option Word) 16 :=
  l.foldl (fun w i => writeW w (BitVec.ofNat 4 i.val) b[i]) w

/-- The writes change the indices they name, to the block's words (R141). -/
theorem writeWords_getElem (b : Block) (w : Vector (Option Word) 16) (l : List (Fin 16)) (j : Fin 16) :
    (writeWords b w l)[j] = if j ∈ l then some b[j] else w[j] := by
  induction l generalizing w with
  | nil => rfl
  | cons i l ih =>
    have hi : (BitVec.ofNat 4 i.val).toNat = i.val := Nat.mod_eq_of_lt i.isLt
    have hw : (writeW w (BitVec.ofNat 4 i.val) b[i])[j] = if j = i then some b[j] else w[j] := by
      rw [Fin.getElem_fin, writeW_getElem, hi]
      by_cases hij : j = i
      · subst hij; simp
      · rw [if_neg hij, if_neg (fun h => hij (Fin.ext h.symm)), Fin.getElem_fin]
    rw [writeWords, List.foldl_cons, ← writeWords, ih, hw]
    by_cases hl : j ∈ l <;> simp [hl]

/-- Writing at every index leaves exactly the block. -/
theorem writeWords_finRange (b : Block) (w : Vector (Option Word) 16) :
    writeWords b w (List.finRange 16) = b.map some := by
  ext i hi : 1
  have h := writeWords_getElem b w (List.finRange 16) ⟨i, hi⟩
  rw [if_pos (List.mem_finRange _)] at h
  simpa using h

/-- A ready engine takes one write of the block and any more after it, each answered OK. -/
theorem issueAll_map_wrwOf {s : State} (h0 : s.cause = 0#2) (b : Block) (i : Fin 16) (l : List (Fin 16)) :
    issueAll ((i :: l).map (wrwOf b)) s = (s.okWithBuffer (writeWords b s.w (i :: l)), .ok []) := by
  rw [List.map_cons, issueAll_cons_ok (issue_wrwOf_of_ready h0 b i)]
  induction l generalizing s i with
  | nil => rfl
  | cons j l ih =>
    rw [List.map_cons, issueAll_cons_ok (issue_wrwOf_of_ready (s := s.okWithBuffer _) h0 b j)]
    exact ih (s := s.okWithBuffer _) h0 j

/-- LDBLK on a ready engine (R94). -/
theorem issueAll_loadBlock {s : State} (h0 : s.cause = 0#2) (b : Block) :
    issueAll (loadBlock b) s = (s.okWithBuffer (b.map some), .ok []) := by
  rw [loadBlock_eq_map, ← writeWords_finRange b s.w, List.finRange_succ]
  exact issueAll_map_wrwOf h0 b 0 _

@[simp] theorem loadBlock_length (b : Block) : (loadBlock b).length = 16 := by
  rw [loadBlock_eq_map, List.length_map, List.length_finRange]

@[simp] theorem hashBlock_length (b : Block) : (hashBlock b).length = 17 := by
  rw [hashBlock, List.length_append, loadBlock_length, List.length_singleton]

/-- Settles O47. -/
theorem loadBlockFillsTheBuffer : Obligations.LoadBlockFillsTheBuffer :=
  ⟨fun _ b h0 => issueAll_loadBlock h0 b, fun b => ⟨loadBlock_length b, hashBlock_length b⟩, rfl⟩

end Sys2Proof.Machine

/-! Byte order (R52, R53): the bytes of a block word (R90) and the words of a digest (R91). -/

namespace Sys2Proof.Machine

theorem beNat_lt (l : List Byte) : beNat l < 256 ^ l.length := by
  induction l with
  | nil => decide
  | cons b l ih =>
    rw [beNat_cons, List.length_cons, Nat.pow_succ']
    calc b.toNat * 256 ^ l.length + beNat l
        < b.toNat * 256 ^ l.length + 256 ^ l.length := by omega
      _ = (b.toNat + 1) * 256 ^ l.length := (Nat.succ_mul _ _).symm
      _ ≤ 256 * 256 ^ l.length := Nat.mul_le_mul_right _ b.isLt

/-- A read of n bytes is their big-endian number, with nothing cut off (R11). -/
theorem memRead_toNat (buf : List Byte) (a n : Nat) (h : a + n ≤ buf.length) :
    (memRead buf a n h).toNat = beNat ((buf.drop a).take n) := by
  have hlen : ((buf.drop a).take n).length = n := by
    rw [List.length_take, List.length_drop]; omega
  have hlt := beNat_lt ((buf.drop a).take n)
  rw [hlen, show 256 = 2 ^ 8 from rfl, ← Nat.pow_mul] at hlt
  rw [memRead, BitVec.toNat_ofNat, Nat.mod_eq_of_lt hlt]

/-- The first of the n + 1 bytes at `a` is the most significant (R52). -/
theorem beNat_take_drop_succ (buf : List Byte) (a n : Nat) (h : a + (n + 1) ≤ buf.length) :
    beNat ((buf.drop a).take (n + 1)) = buf[a].toNat * 256 ^ n + beNat ((buf.drop (a + 1)).take n) := by
  have hlen : ((buf.drop (a + 1)).take n).length = n := by
    rw [List.length_take, List.length_drop]; omega
  rw [List.drop_eq_getElem_cons (by omega), List.take_succ_cons, beNat_cons, hlen]

/-- Eight bytes as one number, written out (R90). -/
theorem memRead_eight_toNat (buf : List Byte) (a : Nat) (h : a + 8 ≤ buf.length) :
    (memRead buf a 8 h).toNat =
      buf[a].toNat * 2 ^ 56 + buf[a + 1].toNat * 2 ^ 48 + buf[a + 2].toNat * 2 ^ 40 + buf[a + 3].toNat * 2 ^ 32 +
      buf[a + 4].toNat * 2 ^ 24 + buf[a + 5].toNat * 2 ^ 16 + buf[a + 6].toNat * 2 ^ 8 + buf[a + 7].toNat := by
  rw [memRead_toNat, beNat_take_drop_succ buf a 7 h, beNat_take_drop_succ buf (a + 1) 6 (by omega),
    beNat_take_drop_succ buf (a + 2) 5 (by omega), beNat_take_drop_succ buf (a + 3) 4 (by omega),
    beNat_take_drop_succ buf (a + 4) 3 (by omega), beNat_take_drop_succ buf (a + 5) 2 (by omega),
    beNat_take_drop_succ buf (a + 6) 1 (by omega), beNat_take_drop_succ buf (a + 7) 0 (by omega), List.take_zero,
    show beNat [] = 0 from rfl]
  omega

/-- Settles O56. -/
theorem blockWordsAreBigEndian : Obligations.BlockWordsAreBigEndian := by
  refine ⟨fun buf j i h hi => ?_, fun b i hi => ?_⟩
  · rw [blockAt, Vector.getElem_ofFn]
    exact memRead_eight_toNat buf (128 * j + 8 * i) (by omega)
  · rw [loadBlock_eq_map, List.getElem?_map, List.getElem?_eq_getElem (by simpa using hi)]
    simp [wrwOf]

/-- Byte k of a word is bits 63 - 8k down to 56 - 8k (R53). -/
theorem wordBytes_getElem? (v : Word) (k : Nat) (hk : k < 8) :
    (wordBytes v)[k]? = some (v.extractLsb' (56 - 8 * k) 8) := by
  interval_cases k <;> rfl

/-- Words written out take eight bytes each (R91). -/
theorem flatMap_wordBytes_length (l : List Word) : (l.flatMap wordBytes).length = 8 * l.length := by
  induction l with
  | nil => rfl
  | cons v l ih => rw [List.flatMap_cons, List.length_append, ih, wordBytes_length, List.length_cons]; omega

/-- Byte 8i + k of the words written out is byte k of word i (R91). -/
theorem flatMap_wordBytes_getElem? (l : List Word) (i k : Nat) (hi : i < l.length) (hk : k < 8) :
    (l.flatMap wordBytes)[8 * i + k]? = (wordBytes l[i])[k]? := by
  induction l generalizing i with
  | nil => exact absurd hi (Nat.not_lt_zero i)
  | cons v l ih =>
    rw [List.flatMap_cons]
    cases i with
    | zero => rw [Nat.mul_zero, Nat.zero_add, List.getElem?_append_left hk, List.getElem_cons_zero]
    | succ i =>
      rw [List.getElem?_append_right (by rw [wordBytes_length]; omega), wordBytes_length,
        show 8 * (i + 1) + k - 8 = 8 * i + k by omega, List.getElem_cons_succ]
      exact ih i (Nat.lt_of_succ_lt_succ hi)

/-- Settles O57. -/
theorem digestBytesAreBigEndianPerWord : Obligations.DigestBytesAreBigEndianPerWord := by
  refine fun h => ⟨?_, fun i k hi hk => ?_⟩
  · rw [serialise, flatMap_wordBytes_length, Vector.length_toList]
  · rw [serialise, flatMap_wordBytes_getElem? _ i k (by simpa using hi) hk, Vector.getElem_toList,
      wordBytes_getElem? _ k hk]

end Sys2Proof.Machine

/-! The primitive operations (R111 to R118): one lemma per operation for what each bit of its result is, or its number. -/

namespace Sys2Proof.Machine

@[simp] theorem and64_getLsbD (x y : Word) (i : Nat) : (and64 x y).getLsbD i = (x.getLsbD i && y.getLsbD i) :=
  BitVec.getLsbD_and

@[simp] theorem or64_getLsbD (x y : Word) (i : Nat) : (or64 x y).getLsbD i = (x.getLsbD i || y.getLsbD i) :=
  BitVec.getLsbD_or

@[simp] theorem xor64_getLsbD (x y : Word) (i : Nat) : (xor64 x y).getLsbD i = (x.getLsbD i ^^ y.getLsbD i) :=
  BitVec.getLsbD_xor

theorem not64_getLsbD (x : Word) {i : Nat} (hi : i < 64) : (not64 x).getLsbD i = !x.getLsbD i := by
  rw [not64_eq, BitVec.getLsbD_not, decide_eq_true hi, Bool.true_and]

theorem not64_toNat (x : Word) : (not64 x).toNat = 2 ^ 64 - 1 - x.toNat := by
  rw [not64_eq, BitVec.toNat_not]

/-- Settles O34. -/
theorem bitwiseOperationsActOnEachBit : Obligations.BitwiseOperationsActOnEachBit := fun x y i hi =>
  ⟨and64_getLsbD x y i, or64_getLsbD x y i, xor64_getLsbD x y i, not64_getLsbD x hi, not64_toNat x⟩

@[simp] theorem shr_getLsbD (x : Word) (n : Nat) (h : 0 < n ∧ n < 64) (i : Nat) :
    (shr x n h).getLsbD i = x.getLsbD (i + n) := by
  rw [shr_eq, BitVec.getLsbD_ushiftRight, Nat.add_comm]

theorem shr_toNat (x : Word) (n : Nat) (h : 0 < n ∧ n < 64) : (shr x n h).toNat = x.toNat / 2 ^ n := by
  rw [shr_eq, BitVec.toNat_ushiftRight, Nat.shiftRight_eq_div_pow]

theorem shl_toNat (x : Word) (m : Nat) (h : 0 < m ∧ m < 64) : (shl x m h).toNat = x.toNat * 2 ^ m % 2 ^ 64 := by
  rw [shl_eq, BitVec.toNat_shiftLeft, Nat.shiftLeft_eq]

/-- Settles O33. -/
theorem shiftsAreByPowersOfTwo : Obligations.ShiftsAreByPowersOfTwo :=
  ⟨shr_toNat, shl_toNat⟩

/-- Settles O35: ADD64 is the addition of 64-bit vectors. -/
theorem additionWrapsModuloTwoToThe64 : Obligations.AdditionWrapsModuloTwoToThe64 := by
  intro x y z
  simp only [add64_eq]
  exact ⟨BitVec.toNat_add x y, BitVec.add_comm x y, BitVec.add_assoc x y z, BitVec.add_zero x, by decide⟩

/-- The two halves of a rotation: a bit comes from the right shift as long as `i + n` stays inside the word, and from the
left shift where it wraps (R111). -/
theorem rotr_getLsbD (x : Word) (n : Nat) (h : 0 < n ∧ n < 64) {i : Nat} (hi : i < 64) :
    (rotr x n h).getLsbD i = x.getLsbD ((i + n) % 64) := by
  rw [rotr_eq, BitVec.getLsbD_or, BitVec.getLsbD_ushiftRight, BitVec.getLsbD_shiftLeft]
  by_cases hin : i + n < 64
  · have hlow : i < 64 - n := by omega
    have hstay : (i + n) % 64 = n + i := by omega
    simp [hlow, hstay]
  · have hhigh : ¬ i < 64 - n := by omega
    have hwrap : (i + n) % 64 = i - (64 - n) := by omega
    simp [hi, hhigh, hwrap, BitVec.getLsbD_of_ge x (n + i) (by omega)]

/-- Rotations compose because their offsets add up modulo 64 (R111). -/
theorem rotr_rotr (x : Word) (m n : Nat) (hm : 0 < m ∧ m < 64) (hn : 0 < n ∧ n < 64)
    (h : 0 < (m + n) % 64 ∧ (m + n) % 64 < 64) : rotr (rotr x m hm) n hn = rotr x ((m + n) % 64) h := by
  refine BitVec.eq_of_getLsbD_eq fun i hi => ?_
  have hoffset : ((i + n) % 64 + m) % 64 = (i + (m + n) % 64) % 64 := by omega
  rw [rotr_getLsbD _ _ _ hi, rotr_getLsbD _ _ _ (Nat.mod_lt _ (by decide)), rotr_getLsbD _ _ _ hi, hoffset]

/-- Settles O32. -/
theorem rotrMovesEveryBit : Obligations.RotrMovesEveryBit :=
  ⟨fun x n h _ hi => rotr_getLsbD x n h hi, rotr_rotr⟩

end Sys2Proof.Machine

/-! The composite functions (R119 to R124). A sigma function is the XOR of three moves of the operand's bits, each linear. -/

namespace Sys2Proof.Machine

/-- A function of a word that is linear over XOR. -/
def XorLinear (f : Word → Word) : Prop := ∀ x y, f (xor64 x y) = xor64 (f x) (f y)

theorem xorLinear_shr (n : Nat) (h : 0 < n ∧ n < 64) : XorLinear (shr · n h) := fun x y =>
  BitVec.eq_of_getLsbD_eq fun i _ => by simp only [shr_getLsbD, xor64_getLsbD]

theorem xorLinear_rotr (n : Nat) (h : 0 < n ∧ n < 64) : XorLinear (rotr · n h) := fun x y =>
  BitVec.eq_of_getLsbD_eq fun i hi => by simp only [rotr_getLsbD _ n h hi, xor64_getLsbD]

theorem xor64_xor64_xor64_comm (a b c d : Word) :
    xor64 (xor64 a b) (xor64 c d) = xor64 (xor64 a c) (xor64 b d) := by
  simp only [xor64]
  ac_rfl

theorem XorLinear.xor {f g : Word → Word} (hf : XorLinear f) (hg : XorLinear g) :
    XorLinear fun x => xor64 (f x) (g x) := fun x y => by
  simp only [hf x y, hg x y]
  exact xor64_xor64_xor64_comm ..

theorem xorLinear_bsig0 : XorLinear bsig0 :=
  ((xorLinear_rotr 28 _).xor (xorLinear_rotr 34 _)).xor (xorLinear_rotr 39 _)

theorem xorLinear_bsig1 : XorLinear bsig1 :=
  ((xorLinear_rotr 14 _).xor (xorLinear_rotr 18 _)).xor (xorLinear_rotr 41 _)

theorem xorLinear_ssig0 : XorLinear ssig0 :=
  ((xorLinear_rotr 1 _).xor (xorLinear_rotr 8 _)).xor (xorLinear_shr 7 _)

theorem xorLinear_ssig1 : XorLinear ssig1 :=
  ((xorLinear_rotr 19 _).xor (xorLinear_rotr 61 _)).xor (xorLinear_shr 6 _)

/-- Settles O36. -/
theorem sigmaFunctionsAreLinearOverXor : Obligations.SigmaFunctionsAreLinearOverXor := fun x y =>
  ⟨xorLinear_bsig0 x y, xorLinear_bsig1 x y, xorLinear_ssig0 x y, xorLinear_ssig1 x y⟩

/-- Settles O37: a bit of a XOR is the XOR of the bits, each found where its rotation or shift takes it from. -/
theorem sigmaFunctionsByBit : Obligations.SigmaFunctionsByBit := by
  intro x i hi
  refine ⟨?_, ?_, ?_, ?_⟩
  · simp only [bsig0, xor64_getLsbD, rotr_getLsbD x _ _ hi]
  · simp only [bsig1, xor64_getLsbD, rotr_getLsbD x _ _ hi]
  · simp only [ssig0, xor64_getLsbD, rotr_getLsbD x _ _ hi, shr_getLsbD]
  · simp only [ssig1, xor64_getLsbD, rotr_getLsbD x _ _ hi, shr_getLsbD]

theorem ch_getLsbD (x y z : Word) {i : Nat} (hi : i < 64) :
    (ch x y z).getLsbD i = if x.getLsbD i = true then y.getLsbD i else z.getLsbD i := by
  simp only [ch, xor64_getLsbD, and64_getLsbD, not64_getLsbD x hi]
  cases x.getLsbD i <;> simp

/-- The majority of three bits as the XOR of their pairwise ANDs (R124). -/
theorem majority_iff : ∀ a b c : Bool,
    ((a && b) ^^ (a && c) ^^ (b && c)) = true ↔ 2 ≤ a.toNat + b.toNat + c.toNat := by
  decide

theorem maj_getLsbD (x y z : Word) (i : Nat) :
    (maj x y z).getLsbD i = true ↔ 2 ≤ (x.getLsbD i).toNat + (y.getLsbD i).toNat + (z.getLsbD i).toNat := by
  simp only [maj, xor64_getLsbD, and64_getLsbD]
  exact majority_iff ..

/-- Settles O38. -/
theorem chooseAndMajorityByBit : Obligations.ChooseAndMajorityByBit := fun x y z i hi =>
  ⟨ch_getLsbD x y z hi, maj_getLsbD x y z i⟩

end Sys2Proof.Machine

/-! The write of one buffer word (R141). -/

namespace Sys2Proof.Machine

/-- The command word of WRW `idx` as the sum of the row's pattern and the index (R83, R84). -/
theorem append_two_eq_add (idx : BitVec 4) : 0x2#4 ++ idx = 0x20 + idx.setWidth 8 := by
  revert idx; decide

theorem decode_wrw (idx : BitVec 4) (v : Word) : decode ⟨0x20 + idx.setWidth 8, v⟩ = .ok (.wrw idx v) :=
  decode_eq_ok_iff.mpr ⟨rfl, append_two_eq_add idx, by rintro _ _ ⟨⟩; rfl⟩

/-- Settles O12: the equation of a ready WRW and the two facts of `writeW`, or the refusal. -/
theorem wrwWritesOneBufferWord : Obligations.WrwWritesOneBufferWord := by
  refine ⟨decode_wrw, fun s idx v h0 => ?_, fun s idx v hl => exec_of_latched hl _⟩
  have hw (j : Nat) (hj : j < 16) : (writeW s.w idx v)[j] = if j = idx.toNat then some v else s.w[j] := by
    rw [writeW_getElem]
    simp only [eq_comm]
  refine ⟨_, exec_wrw_of_ready h0 idx v, hw, fun j hj => ?_, rfl, rfl, h0, rfl, rfl⟩
  rw [wv_getLsbD _ j hj, wv_getLsbD s j hj, hw j hj]
  split <;> rfl

/-- Writes to two buffer words commute (R141 case (b)). -/
theorem writeW_comm (w : Vector (Option Word) 16) {i j : BitVec 4} (hij : i ≠ j) (a b : Word) :
    writeW (writeW w i a) j b = writeW (writeW w j b) i a :=
  Vector.set_comm _ _ (by rwa [indexOf_eq, indexOf_eq, Ne, BitVec.toNat_inj])

/-- Settles O18: a ready engine makes both writes, a latched one refuses all four commands. -/
theorem bufferWritesCommute : Obligations.BufferWritesCommute := by
  intro s t u t' u' i j a b hij ht hu ht' hu'
  by_cases h0 : s.cause = 0#2
  · rw [exec_wrw_of_ready h0] at ht ht'
    cases ht
    cases ht'
    rw [exec_wrw_of_ready (by exact h0)] at hu hu'
    cases hu
    cases hu'
    simp only [writeW_comm s.w hij]
  · rw [exec_of_latched h0] at ht ht'
    cases ht
    cases ht'
    rw [exec_refuse_of_latched h0] at hu hu'
    cases hu
    cases hu'
    rfl

end Sys2Proof.Machine

/-! The message schedule (R142, R143) and the window of its latest sixteen words (R145). -/

namespace Sys2Proof.Machine

/-- ROTR is the rotation of 64-bit vectors (R111). -/
theorem rotr_eq_rotateRight (x : Word) (n : Nat) (h : 0 < n ∧ n < 64) : rotr x n h = x.rotateRight n := by
  rw [rotr_eq, BitVec.rotateRight_def, Nat.mod_eq_of_lt h.2]

/-- The formula of R142 in the operations of 64-bit vectors. -/
theorem extendWord_eq (w16 w15 w7 w2 : Word) :
    extendWord w16 w15 w7 w2 =
      w16 + (w15.rotateRight 1 ^^^ w15.rotateRight 8 ^^^ w15 >>> 7) + w7 +
        (w2.rotateRight 19 ^^^ w2.rotateRight 61 ^^^ w2 >>> 6) := by
  simp only [extendWord, ssig0, ssig1, xor64, add64_eq, rotr_eq_rotateRight, shr_eq]

/-- A word of any stage is the word of the finished schedule, which may be the earlier of the two (R143). -/
theorem schedTo_getElem_eq_sched (b : Block) (n i : Nat) (hi : i < 16 + n) (hi80 : i < 80) :
    (schedTo b n)[i] = (sched b)[i] := by
  obtain hle | hge := Nat.le_total n 64
  · exact (sched_getElem b n i hle hi).symm
  · exact schedTo_stable b hge i hi80

/-- A schedule word follows from the four behind it (R142, R143). -/
theorem sched_getElem_add_sixteen (b : Block) (n : Nat) (hn : 16 + n < 80) :
    (sched b)[16 + n] = extendWord (sched b)[n] (sched b)[n + 1] (sched b)[n + 9] (sched b)[n + 14] := by
  have hlast := schedTo_succ_last b n
  simpa (disch := omega) only [schedTo_getElem_eq_sched] using hlast

/-- Settles O42. -/
theorem scheduleObeysTheExtensionRule : Obligations.ScheduleObeysTheExtensionRule := by
  intro b
  refine ⟨fun i hi => sched_getElem b 0 i (by decide) hi, fun i hi h16 => ?_⟩
  obtain ⟨n, rfl⟩ := Nat.exists_eq_add_of_le h16
  have hword := sched_getElem_add_sixteen b n hi
  rw [extendWord_eq] at hword
  simpa only [show 16 + n - 16 = n by omega, show 16 + n - 15 = n + 1 by omega, show 16 + n - 7 = n + 9 by omega,
    show 16 + n - 2 = n + 14 by omega] using hword

/-- A block of zeros is extended by zeros (R142). -/
theorem schedTo_zeros (n : Nat) : schedTo (Vector.replicate 16 0) n = Vector.replicate (16 + n) 0 := by
  induction n with
  | zero => rfl
  | succ n ih =>
    have hzero : extendWord 0 0 0 0 = 0 := by decide
    simp only [schedTo, ih, Vector.getElem_replicate, hzero]
    exact Vector.replicate_succ.symm

/-- Settles O43. -/
theorem zeroBlockGivesZeroSchedule : Obligations.ZeroBlockGivesZeroSchedule := by
  intro i hi
  simp only [sched, schedTo_zeros, Vector.getElem_replicate]

/-- The window after `n` rounds holds the schedule words from number `n` on, also past word 79, where the engine
still slides it (R145). -/
theorem windowAfter_window (b : Block) (v : Working) (n : Nat) (hn : n ≤ 80) (i : Nat) (hi : i < 16) :
    (windowAfter b v n hn).1[i] = (schedTo b n)[n + i]'(by omega) := by
  induction n generalizing i with
  | zero => simp [windowAfter, schedTo]
  | succ n ih =>
    have hn' : n ≤ 80 := Nat.le_of_succ_le hn
    rw [windowAfter]
    by_cases hlast : i < 15
    · rw [slideWindow_of_lt _ i hlast, ih hn', schedTo_succ_of_lt b n (n + 1 + i) (by omega)]
      simp only [Nat.add_assoc, Nat.add_comm 1 i]
    · obtain rfl : i = 15 := by omega
      rw [slideWindow_last]
      simp only [ih hn', Nat.add_zero]
      rw [← schedTo_succ_last]
      simp only [show n + 1 + 15 = 16 + n by omega]

/-- The windowed rounds compute the working variables of R164. -/
theorem windowAfter_working (b : Block) (v : Working) (n : Nat) (hn : n ≤ 80) :
    (windowAfter b v n hn).2 = workingAfter (sched b) v n hn := by
  induction n with
  | zero => rfl
  | succ n ih =>
    have holdest : (windowAfter b v n (Nat.le_of_succ_le hn)).1[0] = (sched b)[n] := by
      rw [windowAfter_window b v n _ 0 (by decide)]
      exact schedTo_getElem_eq_sched b n n (by omega) hn
    rw [workingAfter_succ, windowAfter, holdest, ih]

/-- Settles O46. -/
theorem windowedCompressionIsTheSame : Obligations.WindowedCompressionIsTheSame := by
  intro s b
  rw [compressWindowed, compress, windowAfter_working]

end Sys2Proof.Machine

/-! COMPRESS and RDH of a ready engine, an equation per state clause (R167, R168), and the three commands' own statements. -/

namespace Sys2Proof.Machine

/-- COMPRESS of a ready engine without a digest (R167, R223). -/
theorem exec_compress_of_noDigest {s : State} (h0 : s.cause = 0#2) (hh : s.h = none) :
    exec .compress s = .next (s.raise .hUninit) := by
  simp only [exec, execCompress, unlessLatched_of_ready h0, hh]

/-- COMPRESS of a ready engine with a digest and the whole block (R167). -/
theorem exec_compress_of_block {s : State} {h : HWords} {b : Block} (h0 : s.cause = 0#2) (hh : s.h = some h)
    (hw : s.w = b.map some) :
    exec .compress s = .next { s with h := some (compress h b), w := emptyW, response := some .ok } := by
  simp only [exec, execCompress, unlessLatched_of_ready h0, hh, hw, presentBlock_map_some, State.respond]

/-- RDH of a ready engine without a digest (R168, R223). -/
theorem exec_rdh_of_noDigest {s : State} {idx : BitVec 4} (h0 : s.cause = 0#2) (hh : s.h = none)
    (hlt : indexOf idx < 8) : exec (.rdh idx) s = .next (s.raise .hUninit) := by
  simp only [exec, execRdh, unlessLatched_of_ready h0, dif_pos hlt, hh]

theorem hv_eq_false_iff (s : State) : s.hv = false ↔ s.h = none := by
  rw [hv_eq, Option.isSome_eq_false_iff, Option.isNone_iff_eq_none]

theorem hv_eq_true_iff (s : State) : s.hv = true ↔ ∃ h, s.h = some h := by
  rw [hv_eq, Option.isSome_iff_exists]

/-- WV lacks a bit exactly when the block is not present (R24, R167). -/
theorem wv_ne_full_iff (s : State) : s.wv ≠ 0xffff#16 ↔ presentBlock s.w = none := by
  rw [Ne, wv_eq_full_iff, ← Option.isSome_iff_exists, Option.not_isSome_iff_eq_none]

/-- Settles O11: the equation of a ready INIT, which the state it leaves meets again, or the refusal. -/
theorem initLoadsTheInitialState : Obligations.InitLoadsTheInitialState := by
  refine ⟨fun _ => decode_eq_ok_iff.mpr ⟨rfl, rfl, nofun⟩, fun s h0 => ?_, fun s hl => exec_of_latched hl _⟩
  have hinit := exec_init_of_ready h0
  exact ⟨_, hinit, rfl, rfl, emptyW_getElem, wv_of_empty rfl, rfl, h0, rfl, exec_init_idempotent hinit⟩

/-- Settles O13: the flags HV and WV say which of the equations of COMPRESS applies. -/
theorem compressFoldsTheBufferedBlock : Obligations.CompressFoldsTheBufferedBlock := by
  refine ⟨fun _ => decode_eq_ok_iff.mpr ⟨rfl, rfl, nofun⟩, fun s hl => exec_of_latched hl _, fun s h0 hv => ?_,
    fun s h0 hv hwv => ?_, fun s h0 hv hwv => ?_⟩
  · rw [exec_compress_of_noDigest h0 ((hv_eq_false_iff s).mp hv), raise_of_ready h0, ErrorCause.code]
  · obtain ⟨h, hh⟩ := (hv_eq_true_iff s).mp hv
    rw [exec_compress_of_noBlock h0 hh ((wv_ne_full_iff s).mp hwv), raise_of_ready h0, ErrorCause.code]
  · obtain ⟨h, hh⟩ := (hv_eq_true_iff s).mp hv
    obtain ⟨b, hb⟩ := (wv_eq_full_iff s).mp hwv
    have hw := (presentBlock_eq_some_iff s.w b).mp hb
    exact ⟨h, b, hh, hw, exec_compress_of_block h0 hh hw⟩

/-- The command word of RDH `idx` as the sum of the row's pattern and the index (R83, R84). -/
theorem append_four_eq_add (idx : BitVec 4) : 0x4#4 ++ idx = 0x40 + idx.setWidth 8 := by
  revert idx; decide

/-- Settles O14: `H` says which of the equations of RDH applies. -/
theorem rdhAnswersTheStateWord : Obligations.RdhAnswersTheStateWord := by
  refine ⟨fun idx d hi => decode_eq_ok_iff.mpr ⟨decide_eq_true hi, append_four_eq_add idx, nofun⟩,
    fun s idx hl => exec_of_latched hl _, fun s idx h0 hi hv => ?_, fun s idx h hi h0 hh => ?_⟩
  · rw [exec_rdh_of_noDigest h0 ((hv_eq_false_iff s).mp hv) ((indexOf_eq idx).symm ▸ hi), raise_of_ready h0,
      ErrorCause.code]
  · rw [exec_rdh_of_ready h0 hh ((indexOf_eq idx).symm ▸ hi), readH_eq]

end Sys2Proof.Machine

/-! What changes H (R170), and what a step looks at (R171, R20). -/

namespace Sys2Proof.Machine

/-- A command that changes H is INIT or a COMPRESS that folds the block (R170). -/
theorem Ran.of_h_ne {i : Instr} {s t : State} (hr : Ran i s t) (hne : t.h ≠ s.h) :
    (i = .init ∧ t.h = some iv) ∨
    (i = .compress ∧ ∃ h b, s.h = some h ∧ s.w = b.map some ∧ t.h = some (compress h b)) := by
  cases hr with
  | initialised hi hs => exact .inl ⟨hi, by rw [hs]⟩
  | compressed h b hi hh hw hs => exact .inr ⟨hi, h, b, hh, hw, by rw [hs]⟩
  | wrote _ _ _ hs | read _ _ _ _ _ hs => exact absurd (by rw [hs]) hne
  | noDigest _ _ hs | noBlock _ _ _ _ hs | badIndex _ _ _ hs => exact absurd (by rw [hs, raise_h]) hne

/-- A decoded request has the command word of its instruction (R83). -/
theorem cmd_of_decode {r : Request} {i : Instr} (hd : decode r = .ok i) : r.cmd = encodeCmd i := by
  obtain ⟨-, hcmd, -⟩ := decode_eq_ok_iff.mp hd
  cases i <;> exact hcmd.symm

/-- Settles O27: of the things a step can do, waiting, a refusal and error entry keep H. -/
theorem onlyInitCompressAndResetChangeH : Obligations.OnlyInitCompressAndResetChangeH := by
  intro s t hstep hne
  obtain ⟨-, rfl⟩ | ⟨rest, hp, rfl⟩ | ⟨_, _, -, -, rfl⟩ | ⟨r, rest, i, hp, -, hd, hr⟩ | ⟨_, _, _, -, -, -, rfl⟩ :=
    step_cases hstep
  · exact absurd rfl hne
  · exact .inl ⟨rest, hp, rfl⟩
  · exact absurd rfl hne
  · obtain ⟨rfl, ht⟩ | ⟨rfl, h, b, hh, hw, ht⟩ := hr.of_h_ne hne
    · exact .inr (.inl ⟨r, rest, hp, cmd_of_decode hd, ht⟩)
    · exact .inr (.inr ⟨r, rest, h, b, hp, cmd_of_decode hd, hh, hw, ht⟩)
  · exact absurd (raise_h _ _) hne

/-- Error entry does not look at the last response (R224). -/
theorem raise_with_response (s : State) (o : Option Response) (c : ErrorCause) :
    { s with response := o }.raise c = s.raise c := by
  by_cases h0 : s.cause = 0#2
  · rw [raise_of_ready h0, raise_of_ready (by exact h0)]
  · rw [raise_of_latched h0, raise_of_latched (by exact h0)]
    rfl

/-- What a command does to a ready engine does not depend on the last response (R171): each case writes its own. -/
theorem Ran.with_response {i : Instr} {s t : State} (hr : Ran i s t) (o : Option Response) :
    Ran i { s with response := o } t := by
  cases hr with
  | initialised hi hs => exact .initialised hi hs
  | wrote idx v hi hs => exact .wrote idx v hi hs
  | compressed h b hi hh hw hs => exact .compressed h b hi hh hw hs
  | read idx h hlt hi hh hs => exact .read idx h hlt hi hh hs
  | noDigest hi hh hs => exact .noDigest hi hh (hs.trans (raise_with_response s o _).symm)
  | noBlock h hi hh hw hs => exact .noBlock h hi hh hw (hs.trans (raise_with_response s o _).symm)
  | badIndex idx hi hlt hs => exact .badIndex idx hi hlt (hs.trans (raise_with_response s o _).symm)

/-- The cases of `Ran` are what a command does: the converse of `exec_of_ready`. -/
theorem exec_of_ran {i : Instr} {s t : State} (h0 : s.cause = 0#2) (hr : Ran i s t) : exec i s = .next t := by
  cases hr with
  | initialised hi hs => rw [hi, hs, exec_init_of_ready h0]
  | wrote idx v hi hs => rw [hi, hs, exec_wrw_of_ready h0]
  | compressed h b hi hh hw hs => rw [hi, hs, exec_compress_of_block h0 hh hw]
  | read idx h hlt hi hh hs => rw [hi, hs, exec_rdh_of_ready h0 hh hlt]
  | noDigest hi hh hs =>
    obtain rfl | ⟨idx, rfl, hlt⟩ := hi
    · rw [hs, exec_compress_of_noDigest h0 hh]
    · rw [hs, exec_rdh_of_noDigest h0 hh hlt]
  | noBlock h hi hh hw hs => rw [hi, hs, exec_compress_of_noBlock h0 hh hw]
  | badIndex idx hi hlt hs => rw [hi, hs, exec_rdh_of_reserved h0 hlt]

/-- No command looks at the last response (R171). -/
theorem exec_with_response (i : Instr) (s : State) (o : Option Response) :
    exec i { s with response := o } = exec i s := by
  obtain ⟨t, ht⟩ := exec_next i s
  rw [ht]
  obtain ⟨hl, rfl⟩ | ⟨h0, hr⟩ := exec_cases ht
  · exact exec_of_latched (s := { s with response := o }) hl i
  · exact exec_of_ran h0 (hr.with_response o)

/-- No event's outcome depends on the last response (R171). -/
theorem runEvent_with_response (ev : HostEvent) (s : State) (o : Option Response) :
    runEvent ev { s with response := o } = runEvent ev s := by
  cases ev with
  | reset => rfl
  | request r =>
    simp only [runEvent, transact]
    cases decode r with
    | ok i => exact exec_with_response i s o
    | error e => exact congrArg _ (raise_with_response s o _)

/-- States with the same architectural state and queue differ in the last response alone (R20). -/
theorem eq_with_response_of_sameArch {s t : State} (ha : SameArch s t) (hp : s.pending = t.pending) :
    s = { t with response := s.response } := by
  obtain ⟨hc, hh, hw⟩ := ha
  exact State.eq_of_fields hc hh hw rfl hp

/-- Settles O28: the two states differ in the last response alone, and no event looks at it. -/
theorem nextStateDependsOnArchitecturalStateAlone : Obligations.NextStateDependsOnArchitecturalStateAlone := by
  intro s t ha hp hne
  obtain ⟨ev, rest, hev⟩ := List.exists_cons_of_ne_nil hne
  rw [step_of_pending_cons hev, step_of_pending_cons (hp ▸ hev), eq_with_response_of_sameArch ha hp]
  exact runEvent_with_response ev { t with pending := rest } s.response

end Sys2Proof.Machine

/-! The compression function (R162 to R166) in the operations of 64-bit vectors. -/

namespace Sys2Proof.Machine

theorem bsig0_eq (a : Word) : bsig0 a = a.rotateRight 28 ^^^ a.rotateRight 34 ^^^ a.rotateRight 39 := by
  simp only [bsig0, xor64, rotr_eq_rotateRight]

theorem bsig1_eq (e : Word) : bsig1 e = e.rotateRight 14 ^^^ e.rotateRight 18 ^^^ e.rotateRight 41 := by
  simp only [bsig1, xor64, rotr_eq_rotateRight]

theorem ch_eq (e f g : Word) : ch e f g = (e &&& f) ^^^ (~~~e &&& g) := by
  simp only [ch, xor64, and64, not64_eq]

theorem maj_eq (a b c : Word) : maj a b c = (a &&& b) ^^^ (a &&& c) ^^^ (b &&& c) := rfl

/-- Settles O44. -/
theorem roundFollowsTheFormulas : Obligations.RoundFollowsTheFormulas := by
  rintro k w _ _ _ _ _ _ v rfl rfl rfl rfl rfl rfl
  simp only [roundStep, add64_eq, bsig0_eq, bsig1_eq, ch_eq, maj_eq]

/-- The working variables before round `t` of `Compress(S, B)` (R164); from round 80 on they stay. -/
def workingBefore (s : HWords) (b : Block) (t : Nat) : Working :=
  workingAfter (sched b) (loadWorking s) (min t 80) (Nat.min_le_right t 80)

theorem workingBefore_of_le (s : HWords) (b : Block) {t : Nat} (ht : t ≤ 80) :
    workingBefore s b t = workingAfter (sched b) (loadWorking s) t ht := by
  simp only [workingBefore, Nat.min_eq_left ht]

/-- Round t uses `K[t]` and `W[t]` (R164). -/
theorem workingBefore_succ (s : HWords) (b : Block) {t : Nat} (ht : t < 80) :
    workingBefore s b (t + 1) = roundStep kTable[t] (sched b)[t] (workingBefore s b t) := by
  rw [workingBefore_of_le s b ht, workingAfter_succ, workingBefore_of_le s b ht.le]

theorem workingBefore_zero (s : HWords) (b : Block) : workingBefore s b 0 = loadWorking s := by
  rw [workingBefore_of_le s b (Nat.zero_le 80), workingAfter]

theorem compress_eq_feedForward (s : HWords) (b : Block) : compress s b = feedForward s (workingBefore s b 80) := by
  rw [compress, workingBefore_of_le s b (Nat.le_refl 80)]

theorem feedForward_eq (s : HWords) (v : Working) :
    feedForward s v = #v[s[0] + v.a, s[1] + v.b, s[2] + v.c, s[3] + v.d,
      s[4] + v.e, s[5] + v.f, s[6] + v.g, s[7] + v.h] := by
  simp only [feedForward, add64_eq]

/-- Settles O45. -/
theorem compressIsEightyRoundsAndFeedForward : Obligations.CompressIsEightyRoundsAndFeedForward := fun s b =>
  ⟨workingBefore s b, workingBefore_zero s b, fun _ => workingBefore_succ s b, by
    rw [compress_eq_feedForward, feedForward_eq]⟩

end Sys2Proof.Machine

/-! The blocks of a message (R169): INIT and each HASHBLK leave the engine with a digest state and an empty buffer. -/

namespace Sys2Proof.Machine

/-- The engine `s` after an OK command of the host that has left `h` in H and emptied the buffer. -/
def State.okWithDigest (s : State) (h : HWords) : State :=
  { s with h := some h, w := emptyW, response := some .ok, pending := [] }

/-- INIT of a ready engine, issued by the host (R161). -/
theorem issue_init_of_ready {s : State} (h0 : s.cause = 0#2) : issue .init s = (s.okWithDigest iv, some .ok) :=
  issue_of_exec rfl (exec_init_of_ready (s := { s with pending := [] }) h0)

/-- COMPRESS of a ready engine with a digest and the whole block, issued by the host (R167). -/
theorem issue_compress_of_block {s : State} {h : HWords} {b : Block} (h0 : s.cause = 0#2) (hh : s.h = some h)
    (hw : s.w = b.map some) : issue .compress s = (s.okWithDigest (compress h b), some .ok) :=
  issue_of_exec rfl (exec_compress_of_block (s := { s with pending := [] }) h0 hh hw)

/-- HASHBLK on a ready engine with a digest (R94, R169). -/
theorem issueAll_hashBlock {s : State} {h : HWords} (h0 : s.cause = 0#2) (hh : s.h = some h) (b : Block) :
    issueAll (hashBlock b) s = (s.okWithDigest (compress h b), .ok []) := by
  have hcompress : issueAll [.compress] (s.okWithBuffer (b.map some)) = (s.okWithDigest (compress h b), .ok []) :=
    issueAll_cons_ok (issue_compress_of_block (s := s.okWithBuffer (b.map some)) h0 hh rfl)
  simp only [hashBlock, issueAll_append (issueAll_loadBlock h0 b), hcompress, List.append_nil]

/-- The state of one block is the input of the next (R169). -/
theorem issueAll_flatMap_hashBlock {s : State} (h0 : s.cause = 0#2) (h : HWords) (bs : List Block) :
    issueAll (bs.flatMap hashBlock) (s.okWithDigest h) = (s.okWithDigest (bs.foldl compress h), .ok []) := by
  induction bs generalizing h with
  | nil => rfl
  | cons b bs ih =>
    have hblock : issueAll (hashBlock b) (s.okWithDigest h) = (s.okWithDigest (compress h b), .ok []) :=
      issueAll_hashBlock (s := s.okWithDigest h) h0 rfl b
    simp only [List.flatMap_cons, issueAll_append hblock, ih, List.append_nil, List.foldl_cons]

/-- Settles O48. -/
theorem blocksChainFromTheInitialState : Obligations.BlocksChainFromTheInitialState := by
  intro s bs h0
  refine ⟨s.okWithDigest (bs.foldl compress iv), ?_, rfl, rfl, h0⟩
  rw [issueAll_cons_ok (issue_init_of_ready h0), issueAll_flatMap_hashBlock h0]

end Sys2Proof.Machine

/-! Padding (R192 to R195): the number of zero bytes, the two halves of the length field, the padded buffer's size, and the
words of its last block. -/

namespace Sys2Proof.Machine

theorem zeroCount_of_lt {len : Nat} (h : len % 128 < 112) : zeroCount len = 111 - len % 128 := if_pos h

theorem zeroCount_of_ge {len : Nat} (h : 112 ≤ len % 128) : zeroCount len = 239 - len % 128 := if_neg (Nat.not_lt.mpr h)

/-- The zero bytes end where the length field has to begin (R193). -/
theorem add_zeroCount_mod (len : Nat) : (len + 1 + zeroCount len) % 128 = 112 := by
  obtain h | h := Nat.lt_or_ge (len % 128) 112
  · rw [zeroCount_of_lt h]; omega
  · rw [zeroCount_of_ge h]; omega

theorem zeroCount_le (len : Nat) : zeroCount len ≤ 127 := by
  obtain h | h := Nat.lt_or_ge (len % 128) 112
  · rw [zeroCount_of_lt h]; omega
  · rw [zeroCount_of_ge h]; omega

/-- Settles O52. -/
theorem zeroBytesReachResidue112 : Obligations.ZeroBytesReachResidue112 := by
  refine ⟨fun len => ⟨zeroCount_of_lt, zeroCount_of_ge, zeroCount_le len, add_zeroCount_mod len⟩, fun len => ?_⟩
  refine ⟨fun h => ?_, fun h => ?_, fun h => ?_, fun h => ?_⟩
  · rw [zeroCount_of_lt (by omega), h]
  · rw [zeroCount_of_ge (by omega), h]
  · rw [zeroCount_of_ge (by omega), h]
  · rw [zeroCount_of_lt (by omega), h]

@[simp] theorem lengthField_length (len : Nat) : (lengthField len).length = 16 := beBytes_length ..

theorem pad_length (m : List Byte) : (pad m).length = m.length + 1 + zeroCount m.length + 16 := by
  simp only [pad, List.length_append, List.length_cons, List.length_replicate, lengthField_length]
  omega

/-- The padded buffer is its blocks and nothing more (R195). -/
theorem pad_length_eq (m : List Byte) : (pad m).length = 128 * (blocks (pad m)).length := by
  have hz := add_zeroCount_mod m.length
  rw [blocks_length, pad_length]
  omega

theorem blocks_pad_length_of_lt {m : List Byte} (h : m.length % 128 < 112) :
    (blocks (pad m)).length = m.length / 128 + 1 := by
  rw [blocks_length, pad_length, zeroCount_of_lt h]
  omega

theorem blocks_pad_length_of_ge {m : List Byte} (h : 112 ≤ m.length % 128) :
    (blocks (pad m)).length = m.length / 128 + 2 := by
  rw [blocks_length, pad_length, zeroCount_of_ge h]
  omega

theorem blocks_pad_length_pos (m : List Byte) : 1 ≤ (blocks (pad m)).length := by
  have hlen := pad_length_eq m
  rw [pad_length] at hlen
  omega

/-- Settles O54. -/
theorem paddedSizeAndBlockCount : Obligations.PaddedSizeAndBlockCount := fun m =>
  ⟨pad_length m, by rw [pad_length_eq, Nat.mul_mod_right], blocks_pad_length_of_lt, blocks_pad_length_of_ge,
    blocks_pad_length_pos m⟩

/-- The length field is the last 16 bytes of the padded buffer (R194). -/
theorem pad_drop_eq_lengthField (m : List Byte) : (pad m).drop ((pad m).length - 16) = lengthField m.length := by
  have hpad : pad m = (m ++ 0x80 :: List.replicate (zeroCount m.length) 0) ++ lengthField m.length := by
    simp only [pad, List.append_assoc, List.cons_append]
  rw [hpad]
  exact List.drop_left' (by simp only [List.length_append, lengthField_length, Nat.add_sub_cancel])

/-- The bytes of a number are those of its high part before those of its low part (R52). -/
theorem beBytes_add (a b v : Nat) : beBytes (a + b) v = beBytes a (v / 256 ^ b) ++ beBytes b v := by
  induction a with
  | zero => rw [Nat.zero_add]; rfl
  | succ a ih =>
    rw [Nat.succ_add, beBytes, ih, beBytes, List.cons_append, Nat.div_div_eq_div_mul, ← Nat.pow_add, Nat.add_comm b]

theorem beBytes_zero (n : Nat) : beBytes n 0 = List.replicate n 0 := by
  induction n with
  | zero => rfl
  | succ n ih => rw [beBytes, ih, Nat.zero_div, List.replicate_succ]; rfl

/-- The bit length of a message in the domain fits in the last eight bytes of the length field (R191, R194). -/
theorem lengthField_eq {len : Nat} (h : 8 * len ≤ 2 ^ 64 - 1) :
    lengthField len = List.replicate 8 0 ++ beBytes 8 (8 * len) := by
  have hhigh : 8 * len / 256 ^ 8 = 0 := Nat.div_eq_of_lt (by omega)
  rw [lengthField, show Config.lenFieldBytes = 8 + 8 from rfl, beBytes_add, hhigh, beBytes_zero]

/-- Word `i` of a block is the number of its eight bytes (R90, R196). -/
theorem blockAt_getElem_toNat {buf : List Byte} {j : Nat} (h : 128 * j + 128 ≤ buf.length) (i : Nat) (hi : i < 16) :
    (blockAt buf j h)[i].toNat = beNat ((buf.drop (128 * j + 8 * i)).take 8) := by
  rw [blockAt, Vector.getElem_ofFn, memRead_toNat]

/-- The last two words of a block whose last sixteen bytes are `hi` and `lo`. -/
theorem blockAt_last_words {buf hi lo : List Byte} {j : Nat} (h : 128 * j + 128 ≤ buf.length)
    (hhi : hi.length = 8) (hlo : lo.length = 8) (hdrop : buf.drop (128 * j + 8 * 14) = hi ++ lo) :
    (blockAt buf j h)[14].toNat = beNat hi ∧ (blockAt buf j h)[15].toNat = beNat lo := by
  have hdrop' : buf.drop (128 * j + 8 * 15) = lo := by
    rw [show 128 * j + 8 * 15 = 128 * j + 8 * 14 + 8 from rfl, ← List.drop_drop, hdrop, List.drop_left' hhi]
  constructor
  · rw [blockAt_getElem_toNat, hdrop, List.take_left' hhi]
  · rw [blockAt_getElem_toNat, hdrop', List.take_of_length_le hlo.le]

/-- W[14] and W[15] of the last block of a padded message (R194). -/
theorem blocks_pad_getLast? {m : List Byte} (h : 8 * m.length ≤ 2 ^ 64 - 1) :
    ∃ b, (blocks (pad m)).getLast? = some b ∧ b[14] = 0 ∧ b[15].toNat = 8 * m.length := by
  obtain ⟨j, hj⟩ := Nat.exists_eq_add_of_le' (blocks_pad_length_pos m)
  have hlen : (pad m).length = 128 * j + 128 := by rw [pad_length_eq, hj, Nat.mul_succ]
  have hdrop : (pad m).drop (128 * j + 8 * 14) = List.replicate 8 0 ++ beBytes 8 (8 * m.length) := by
    rw [← lengthField_eq h, ← pad_drop_eq_lengthField, hlen]
    rfl
  obtain ⟨h14, h15⟩ := blockAt_last_words hlen.ge (List.length_replicate ..) (beBytes_length ..) hdrop
  refine ⟨blockAt (pad m) j hlen.ge, ?_, BitVec.eq_of_toNat_eq h14, ?_⟩
  · rw [List.getLast?_eq_getElem?, hj, Nat.add_sub_cancel, List.getElem?_eq_getElem (by omega), blocks_getElem]
  · rw [h15, beNat_beBytes]
    exact Nat.mod_eq_of_lt (by omega)

/-- Settles O53. -/
theorem lastBlockEndsInTheBitLength : Obligations.LastBlockEndsInTheBitLength := by
  intro m h
  refine ⟨lengthField_length _, ?_, ?_, pad_drop_eq_lengthField m, blocks_pad_getLast? h⟩
  · rw [lengthField, beNat_beBytes]
    exact Nat.mod_eq_of_lt (lt_of_le_of_lt h (by decide))
  · rw [lengthField_eq h]
    exact List.take_left' (List.length_replicate ..)

end Sys2Proof.Machine

/-! One message (R197 to R199): the number of its commands, RDDIG, the digest the host returns, its digits, and the calls it
refuses (R210 to R215). -/

namespace Sys2Proof.Machine

theorem flatMap_length_of_const {α β : Type} {f : α → List β} {n : Nat} (hf : ∀ x, (f x).length = n) (l : List α) :
    (l.flatMap f).length = n * l.length := by
  simp [List.length_flatMap, hf, Nat.mul_comm]

@[simp] theorem readDigest_length : readDigest.length = 8 := rfl

/-- Settles O55. -/
theorem messageTakesOnePlus17NPlus8Commands : Obligations.MessageTakesOnePlus17NPlus8Commands := by
  intro m
  rw [digestCommands, List.length_cons, List.length_append, flatMap_length_of_const hashBlock_length, readDigest_length]
  omega

theorem hexDigits_length (bytes : List Byte) : (hexDigits bytes).length = 2 * bytes.length :=
  flatMap_length_of_const (n := 2) (fun _ => rfl) bytes

theorem hexDigit_mem : ∀ n : BitVec 4, hexDigit n ∈ "0123456789abcdef".toList := by decide

theorem mem_of_mem_hexDigits {bytes : List Byte} {c : Char} (hc : c ∈ hexDigits bytes) :
    c ∈ "0123456789abcdef".toList := by
  obtain ⟨b, -, hcb⟩ := List.mem_flatMap.mp hc
  obtain rfl | rfl := List.mem_pair.mp hcb
  · exact hexDigit_mem _
  · exact hexDigit_mem _

theorem sha512_length (m : List Byte) : (sha512 m).length = 64 := (digestBytesAreBigEndianPerWord _).1

/-- Settles O58. -/
theorem digestHas64BytesAnd128Digits : Obligations.DigestHas64BytesAnd128Digits := fun m =>
  ⟨sha512_length m, by rw [hexDigits_length, sha512_length], fun _ => mem_of_mem_hexDigits⟩

/-- The RDH that reads word `i` of the digest. -/
def rdhOf (i : Fin 8) : Instr := .rdh (BitVec.ofNat 4 i.val)

theorem readDigest_eq_map : readDigest = (List.finRange 8).map rdhOf := rfl

/-- RDH of a ready engine with a digest, issued by the host (R168). -/
theorem issue_rdhOf_of_ready {s : State} {h : HWords} (h0 : s.cause = 0#2) (hh : s.h = some h) (i : Fin 8) :
    issue (rdhOf i) s = ({ s with response := some (.okData h[i]), pending := [] }, some (.okData h[i])) := by
  have hi : (BitVec.ofNat 4 i.val).toNat = i.val := Nat.mod_eq_of_lt (by omega)
  have hwf : (BitVec.ofNat 4 i.val).toNat < 8 := hi.symm ▸ i.isLt
  have hlt : indexOf (BitVec.ofNat 4 i.val) < 8 := (indexOf_eq _).symm ▸ hwf
  have hread : readH h (BitVec.ofNat 4 i.val) hlt = h[i] := by simp only [readH_eq, hi, Fin.getElem_fin]
  rw [← hread]
  exact issue_of_exec (decide_eq_true hwf) (exec_rdh_of_ready (s := { s with pending := [] }) h0 hh hlt)

/-- Reads of digest words answer those words in order and leave the architectural state (R168). -/
theorem issueAll_map_rdhOf {s : State} {h : HWords} (h0 : s.cause = 0#2) (hh : s.h = some h) (l : List (Fin 8)) :
    ∃ t, issueAll (l.map rdhOf) s = (t, .ok (l.map (h[·]))) ∧ SameArch s t := by
  induction l generalizing s with
  | nil => exact ⟨s, rfl, rfl, rfl, rfl⟩
  | cons i l ih =>
    obtain ⟨t, ht, harch⟩ := ih (s := { s with response := some (.okData h[i]), pending := [] }) h0 hh
    exact ⟨t, issueAll_cons_data (issue_rdhOf_of_ready h0 hh i) ht, harch⟩

theorem map_getElem_finRange_eq_toList (h : HWords) : (List.finRange 8).map (h[·]) = h.toList := by
  apply List.ext_getElem <;> simp

/-- RDDIG on a ready engine with a digest (R94, R198). -/
theorem issueAll_readDigest {s : State} {h : HWords} (h0 : s.cause = 0#2) (hh : s.h = some h) :
    ∃ t, issueAll readDigest s = (t, .ok h.toList) ∧ SameArch s t := by
  rw [readDigest_eq_map, ← map_getElem_finRange_eq_toList]
  exact issueAll_map_rdhOf h0 hh _

/-- The commands of one message on a ready engine: the words read are those of the last digest state (R197). -/
theorem issueAll_digestCommands {s : State} (h0 : s.cause = 0#2) (m : List Byte) :
    ∃ t, issueAll (digestCommands m) s = (t, .ok (compressAll iv (blocks (pad m))).toList) ∧
      t.h = some (compressAll iv (blocks (pad m))) ∧ t.w = emptyW ∧ t.cause = 0#2 := by
  obtain ⟨u, hu, hh, hw, hc⟩ := blocksChainFromTheInitialState s (blocks (pad m)) h0
  obtain ⟨t, ht, hcause, hdigest, hbuffer⟩ := issueAll_readDigest hc hh
  refine ⟨t, ?_, hdigest ▸ hh, hbuffer ▸ hw, hcause ▸ hc⟩
  rw [digestCommands, ← List.cons_append, issueAll_append hu, ht]
  rfl

theorem digestBytes_of_ok {m : List Byte} {s t : State} {ws : List Word} (hm : 8 * m.length ≤ 2 ^ 64 - 1)
    (h : issueAll (digestCommands m) s = (t, .ok ws)) : digestBytes m s = (t, .ok (ws.flatMap wordBytes)) := by
  rw [digestBytes, if_pos hm, h]

theorem digestBytes_of_error {m : List Byte} {s t : State} {e : HostError} (hm : 8 * m.length ≤ 2 ^ 64 - 1)
    (h : issueAll (digestCommands m) s = (t, .error e)) : digestBytes m s = (t, .error e) := by
  rw [digestBytes, if_pos hm, h]

theorem digestBytes_of_tooLong {m : List Byte} (hm : 2 ^ 61 ≤ m.length) (s : State) :
    digestBytes m s = (s, .error .messageTooLong) :=
  if_neg (by simp only [Config.maxMsgBits]; omega)

/-- Settles O49: the blocks are folded as O48 says, then RDDIG reads the state words. -/
theorem commandSequenceComputesTheDigest : Obligations.CommandSequenceComputesTheDigest := by
  intro s m h0 hm
  obtain ⟨t, ht, hh, hw, hc⟩ := issueAll_digestCommands h0 m
  exact ⟨t, digestBytes_of_ok hm ht, hh, (hv_eq_true_iff t).mpr ⟨_, hh⟩, hw, hc⟩

/-- A command to an engine with an error latched, issued by the host (R225). -/
theorem issue_of_latched {s : State} {i : Instr} (hwf : WellFormed i) (hl : s.cause ≠ 0#2) :
    issue i s = ({ s with response := some (.err s.cause), pending := [] }, some (.err s.cause)) :=
  issue_of_exec hwf (exec_of_latched (s := { s with pending := [] }) hl i)

/-- Settles O51: INIT, the first command of the sequence, is refused. -/
theorem noDigestAfterAnError : Obligations.NoDigestAfterAnError := fun _ _ hl hm =>
  digestBytes_of_error hm (issueAll_cons_err (issue_of_latched rfl hl))

/-- Settles O50. -/
theorem hostRefusesBeforeAnyCommand : Obligations.HostRefusesBeforeAnyCommand := by
  refine ⟨fun s => rfl, fun s t ht => ?_, fun s m hm => digestBytes_of_tooLong hm s⟩
  rw [digest, ht]

end Sys2Proof.Machine

/-! Errors (R221 to R226): what one request can be answered with, and the order of its checks. -/

namespace Sys2Proof.Machine

/-- A transaction with an illegal word is error entry with ILLEGAL_CMD (R87, R222). -/
theorem transact_of_decode_error {r : Request} {e : DecodeError} (hd : decode r = .error e) (s : State) :
    transact r s = .next (s.raise .illegalCmd) := by
  simp only [transact, hd]

/-- With an error latched every transaction is refused, its word legal or not (R225). -/
theorem transact_of_latched {s : State} (hl : s.cause ≠ 0#2) (r : Request) : transact r s = .next s.refuse := by
  cases hd : decode r with
  | ok i => rw [transact_of_decode_ok hd, exec_of_latched hl]
  | error e => rw [transact_of_decode_error hd, raise_of_latched hl]

theorem code_ne_zero (c : ErrorCause) : c.code ≠ 0#2 := by
  cases c <;> decide

/-- `WV` looks at `w` alone (R33). -/
theorem wv_congr {s t : State} (h : t.w = s.w) : t.wv = s.wv := by
  simp only [State.wv, h]

/-- How a request can be answered in `t`, having found `s`: with success and no error latched, or with the latched
cause and no effect on H and W (R86, R224, R225). -/
inductive Answered (s t : State) : Prop where
  | ok (hc : t.cause = 0#2) (hr : t.response = some .ok)
  | data (v : Word) (hc : t.cause = 0#2) (hr : t.response = some (.okData v))
  | error (hc : t.cause ≠ 0#2) (hr : t.response = some (.err t.cause)) (hh : t.h = s.h) (hw : t.w = s.w)

theorem answered_refuse {s : State} (hl : s.cause ≠ 0#2) : Answered s s.refuse :=
  .error hl rfl rfl rfl

theorem answered_raise (s : State) (c : ErrorCause) : Answered s (s.raise c) := by
  refine .error ?_ (raise_response s c) (raise_h s c) (raise_w s c)
  rw [raise_cause]
  split
  · exact code_ne_zero c
  · assumption

theorem Ran.answered {i : Instr} {s t : State} (hr : Ran i s t) (h0 : s.cause = 0#2) : Answered s t := by
  cases hr with
  | initialised _ hs | wrote _ _ _ hs | compressed _ _ _ _ _ hs => subst hs; exact .ok h0 rfl
  | read _ _ _ _ _ hs => subst hs; exact .data _ h0 rfl
  | noDigest _ _ hs | noBlock _ _ _ _ hs | badIndex _ _ _ hs => subst hs; exact answered_raise s _

theorem exec_answered {i : Instr} {s t : State} (h : exec i s = .next t) : Answered s t := by
  obtain ⟨hl, rfl⟩ | ⟨h0, hr⟩ := exec_cases h
  · exact answered_refuse hl
  · exact hr.answered h0

theorem transact_answered {r : Request} {s t : State} (h : transact r s = .next t) : Answered s t := by
  cases hd : decode r with
  | ok i => exact exec_answered (transact_of_decode_ok hd s ▸ h)
  | error e =>
    rw [transact_of_decode_error hd] at h
    cases h
    exact answered_raise s _

theorem step_answered {s t : State} {r : Request} {rest : List HostEvent} (hp : s.pending = .request r :: rest)
    (h : step s = .next t) : Answered { s with pending := rest } t := by
  rw [step_of_pending_cons hp, runEvent] at h
  exact transact_answered h

/-- Settles O19: an answer that is an error is the last case of `Answered`. -/
theorem errorEntryWritesOnlyCause : Obligations.ErrorEntryWritesOnlyCause := by
  refine ⟨fun s c h0 => raise_of_ready h0 c, fun s c hl => raise_of_latched hl c, fun s t r rest c hp h herr => ?_⟩
  cases step_answered hp h with
  | ok _ hr | data _ _ hr => cases hr.symm.trans herr
  | error hc hr hh hw =>
    cases hr.symm.trans herr
    exact ⟨rfl, hc, hh, congrArg Option.isSome hh, hw, wv_congr hw⟩

/-- Settles O20: the status of each answer is CAUSE. -/
theorem latchedErrorRefusesEveryRequest : Obligations.LatchedErrorRefusesEveryRequest := by
  refine ⟨fun s r rest hp hl => ?_, fun s t r rest hp h => ?_⟩
  · rw [step_of_pending_cons hp]
    exact transact_of_latched (s := { s with pending := rest }) hl r
  · cases step_answered hp h with
    | ok hc hr | data _ hc hr => exact ⟨_, hr, hc.symm⟩
    | error _ hr => exact ⟨_, hr, rfl⟩

/-- The checks of COMPRESS after the latched error (R226). -/
theorem exec_compress_cause {s t : State} (h0 : s.cause = 0#2) (h : exec .compress s = .next t) :
    t.cause = if s.hv = false then 2#2 else if s.wv ≠ 0xffff#16 then 3#2 else 0#2 := by
  obtain ⟨-, -, hnoDigest, hnoBlock, hblock⟩ := compressFoldsTheBufferedBlock
  split
  case isTrue hv =>
    rw [hnoDigest s h0 hv] at h
    cases h
    rfl
  case isFalse hv =>
    rw [Bool.not_eq_false] at hv
    split
    case isTrue hwv =>
      rw [hnoBlock s h0 hv hwv] at h
      cases h
      rfl
    case isFalse hwv =>
      obtain ⟨_, _, -, -, hfold⟩ := hblock s h0 hv (not_not.mp hwv)
      rw [hfold] at h
      cases h
      exact h0

/-- The checks of RDH at an index that selects a state word, after the latched error (R226). -/
theorem exec_rdh_cause {s t : State} {idx : BitVec 4} (h0 : s.cause = 0#2) (hlt : idx.toNat < 8)
    (h : exec (.rdh idx) s = .next t) : t.cause = if s.hv = false then 2#2 else 0#2 := by
  obtain ⟨-, -, hnoDigest, hdigest⟩ := rdhAnswersTheStateWord
  split
  case isTrue hv =>
    rw [hnoDigest s idx h0 hlt hv] at h
    cases h
    rfl
  case isFalse hv =>
    obtain ⟨d, hd⟩ := (hv_eq_true_iff s).mp (Bool.eq_true_of_not_eq_false hv)
    rw [hdigest s idx d hlt h0 hd] at h
    cases h
    exact h0

/-- A decoded RDH selects a state word (R82). -/
theorem idx_lt_of_decode_rdh {r : Request} {idx : BitVec 4} (hd : decode r = .ok (.rdh idx)) : idx.toNat < 8 :=
  of_decide_eq_true (decode_eq_ok_iff.mp hd).1

/-- Settles O21: the latched error, then the word, then the checks of its command. -/
theorem checksAreMadeInOrder : Obligations.ChecksAreMadeInOrder := by
  intro s r rest hp
  obtain ⟨t, ht⟩ := step_next s
  refine ⟨t, ht, ?_⟩
  rw [step_of_pending_cons hp, runEvent] at ht
  by_cases h0 : s.cause = 0#2
  · rw [if_neg (not_not.mpr h0)]
    cases hd : decode r with
    | error e =>
      rw [transact_of_decode_error hd, raise_of_ready (by exact h0)] at ht
      cases ht
      rfl
    | ok i =>
      rw [transact_of_decode_ok hd] at ht
      cases i with
      | init => exact (exec_init_frame ht).trans h0
      | wrw idx v => exact (exec_wrw_frame ht).1.trans h0
      | compress => exact exec_compress_cause (s := { s with pending := rest }) h0 ht
      | rdh idx => exact exec_rdh_cause (s := { s with pending := rest }) h0 (idx_lt_of_decode_rdh hd) ht
  · rw [transact_of_latched (by exact h0)] at ht
    cases ht
    exact (if_pos h0).symm

/-- The fields of the command words that R222 lists as illegal. -/
abbrev ListedIllegal (op idx : Nat) : Prop :=
  op = 0 ∨ 5 ≤ op ∨ ((op = 1 ∨ op = 3) ∧ idx ≠ 0) ∨ (op = 4 ∧ 8 ≤ idx)

/-- The decoder rejects exactly the listed words (R88, R222). -/
theorem exists_decode_error_iff (r : Request) :
    (∃ e, decode r = .error e) ↔ ListedIllegal (r.cmd.toNat / 16) (r.cmd.toNat % 16) := by
  obtain ⟨hinit, hwrw, hcompress, hrdh, hillegal⟩ := decoderIsTheTotalFunctionOfTheFields r _ _ rfl rfl
  constructor
  · rintro ⟨e, he⟩
    by_contra hn
    have hlegal : (r.cmd.toNat / 16 = 1 ∧ r.cmd.toNat % 16 = 0) ∨ r.cmd.toNat / 16 = 2 ∨
        (r.cmd.toNat / 16 = 3 ∧ r.cmd.toNat % 16 = 0) ∨ (r.cmd.toNat / 16 = 4 ∧ r.cmd.toNat % 16 < 8) := by
      omega
    obtain h | h | h | h := hlegal
    · cases he.symm.trans (hinit h)
    · cases he.symm.trans (hwrw h)
    · cases he.symm.trans (hcompress h)
    · cases he.symm.trans (hrdh h)
  · intro h
    exact hillegal (by omega)

/-- A legal word given to a ready engine leaves no ILLEGAL_CMD (R222). -/
theorem step_cause_ne_one_of_legal {s : State} {r : Request} {rest : List HostEvent} {i : Instr}
    (hp : s.pending = .request r :: rest) (h0 : s.cause = 0#2) (hd : decode r = .ok i) :
    ∃ t, step s = .next t ∧ t.cause ≠ 1#2 := by
  obtain ⟨t, ht, hc⟩ := checksAreMadeInOrder s r rest hp
  refine ⟨t, ht, ?_⟩
  rw [hc, if_neg (not_not.mpr h0), hd]
  cases i with
  | init | wrw => exact (by decide : 0#2 ≠ 1#2)
  | compress =>
    dsimp only
    split
    · decide
    · split <;> decide
  | rdh =>
    dsimp only
    split <;> decide

/-- Settles O9: the listed words are those the decoder rejects, and a rejected word is the one cause of ILLEGAL_CMD. -/
theorem illegalWordsRaiseIllegalCmd : Obligations.IllegalWordsRaiseIllegalCmd := by
  refine ⟨?_, by decide +kernel⟩
  rintro s r rest _ _ hp h0 rfl rfl
  refine ⟨fun hlisted => ?_, fun hother => ?_⟩
  · obtain ⟨e, he⟩ := (exists_decode_error_iff r).mpr hlisted
    rw [step_of_pending_cons hp, runEvent, transact_of_decode_error he, raise_of_ready (by exact h0), ErrorCause.code]
  · cases hd : decode r with
    | ok i => exact step_cause_ne_one_of_legal hp h0 hd
    | error e => exact absurd ((exists_decode_error_iff r).mp ⟨e, hd⟩) hother

end Sys2Proof.Machine

/-! One event of the host (R57, R80, R267): it leaves the queue, a request is answered, and data is the answer to an RDH. -/

namespace Sys2Proof.Machine

/-- Settles O8: the first arm of the step. -/
theorem stepWithNothingPendingChangesNothing : Obligations.StepWithNothingPendingChangesNothing := by
  intro s hp
  simp only [step, hp]

/-- Settles O24: the reset of an engine whose queue the step has already shortened. -/
theorem resetEventGivesTheResetState : Obligations.ResetEventGivesTheResetState := by
  intro s rest hp
  rw [step_of_pending_cons hp, runEvent, State.applyReset]

/-- A transaction does not look at the host's stream. -/
theorem transact_pending {r : Request} {s t : State} (h : transact r s = .next t) : t.pending = s.pending := by
  cases hd : decode r with
  | ok i => exact exec_pending (transact_of_decode_ok hd s ▸ h)
  | error e =>
    rw [transact_of_decode_error hd] at h
    cases h
    exact raise_pending s _

/-- Carrying out an event leaves the later ones in the queue, also when it is the reset (R260, log entry 4). -/
theorem runEvent_pending {ev : HostEvent} {s t : State} (h : runEvent ev s = .next t) : t.pending = s.pending := by
  cases ev with
  | request r => exact transact_pending h
  | reset =>
    cases h
    exact applyReset_pending s

/-- The one command that answers with data is RDH (R86, R168). -/
theorem Ran.eq_rdh_of_okData {i : Instr} {s t : State} {v : Word} (hr : Ran i s t)
    (hv : t.response = some (.okData v)) : ∃ idx, i = .rdh idx := by
  cases hr with
  | read idx _ _ hi _ _ => exact ⟨idx, hi⟩
  | initialised _ hs | wrote _ _ _ hs | compressed _ _ _ _ _ hs => subst hs; cases hv
  | noDigest _ _ hs | noBlock _ _ _ _ hs | badIndex _ _ _ hs => subst hs; cases hv

/-- A step that answers with data has run a decoded RDH: neither a refusal nor error entry carries data (R86). -/
theorem decode_eq_rdh_of_step_okData {s t : State} {r : Request} {rest : List HostEvent} {v : Word}
    (hp : s.pending = .request r :: rest) (h : step s = .next t) (hv : t.response = some (.okData v)) :
    ∃ idx, decode r = .ok (.rdh idx) := by
  obtain ⟨hp', -⟩ | ⟨_, hp', -⟩ | ⟨_, _, -, -, rfl⟩ | ⟨_, _, i, hp', -, hd, hr⟩ | ⟨_, _, _, -, -, -, rfl⟩ := step_cases h
  · cases hp.symm.trans hp'
  · cases hp.symm.trans hp'
  · cases hv
  · cases hp.symm.trans hp'
    obtain ⟨idx, rfl⟩ := hr.eq_rdh_of_okData hv
    exact ⟨idx, hd⟩
  · cases hv

/-- Only an `okData` response carries data (R86, U4). -/
theorem eq_okData_of_rdata_isSome {a : Response} (h : a.rdata.isSome = true) : ∃ v, a = .okData v := by
  cases a with
  | okData v => exact ⟨v, rfl⟩
  | ok | err => cases h

/-- Settles O10: a step always answers, its event keeps the rest of the queue, the status is the one of O20, and data
is what an RDH reads. -/
theorem everyEventIsAnsweredInOneStep : Obligations.EveryEventIsAnsweredInOneStep := by
  intro s ev rest hp
  obtain ⟨t, ht⟩ := step_next s
  refine ⟨t, ht, runEvent_pending (step_of_pending_cons hp ▸ ht), ?_⟩
  rintro r rfl
  obtain ⟨-, hstatus⟩ := latchedErrorRefusesEveryRequest
  obtain ⟨a, ha, hac⟩ := hstatus s t r rest hp ht
  refine ⟨a, ha, hac, fun hdata => ?_⟩
  obtain ⟨v, rfl⟩ := eq_okData_of_rdata_isSome hdata
  exact ⟨rfl, decode_eq_rdh_of_step_okData hp ht ha⟩

end Sys2Proof.Machine
